-- ==== Sys2Proof/Word.lean ====
section
/-! DEFINITION. The word types of libcrypt CORE (spec 00_scope.md rules R7, R9). -/

namespace Sys2Proof

/-- An 8-bit value: a `DATA`, `KEY`, `BOX` or `BUF` byte, `IV`, the indices `A` and `B` (R7). -/
abbrev Byte := BitVec 8

/-- A 32-bit value: a host-visible register, a command word, an MD5 word (R7). -/
abbrev Word := BitVec 32

/-- A 64-bit value: the stream offset and position, the MD5 byte counter (R7). -/
abbrev Dword := BitVec 64

end Sys2Proof
end

