-- ==== Sys2Proof/Syntax.lean ====
section
/-! DEFINITION. The six commands, the register names, the host transactions and the assembler statements. -/

namespace Sys2Proof

/-- The six commands of 30_encoding.md rule R95, one constructor per row of the opcode table. Every operand but `imm8` is
implicit (R94). -/
inductive Instr where
  /-- `MD5.HASH` (40_md5.md R134). -/
  | md5Hash
  /-- `RC4.SETKEY` (41_rc4_ksa.md R161). -/
  | rc4SetKey
  /-- `RC4.SETIV imm8` (41_rc4_ksa.md R162). -/
  | rc4SetIv (imm8 : Byte)
  /-- `RC4.CRYPT` (42_rc4_prga.md R186). -/
  | rc4Crypt
  /-- `RC4.STREAM` (43_rc4_stream.md R201). -/
  | rc4Stream
  /-- `RC4.RESET` (43_rc4_stream.md R205). -/
  | rc4Reset
  deriving DecidableEq, Repr

/-- The host-visible registers of 10_state.md rule R21, by name. -/
inductive Reg where
  | cmd | status | ptr | len | offLo | offHi | posLo | posHi | iv | keyLen | digest0 | digest1 | digest2 | digest3
  deriving DecidableEq, Repr

/-- What the host can do to the engine, one at a time (00_scope.md R8, 30_encoding.md R99, 20_memory.md R60). -/
inductive HostOp where
  /-- The transaction `WR idx, value` (44_host_transactions.md R220). -/
  | wr (idx : BitVec 8) (value : Word)
  /-- The transaction `RD idx` (R221). -/
  | rd (idx : BitVec 8)
  /-- The host loads one byte of `DATA` between commands (20_memory.md R60). -/
  | putData (addr : Word) (v : Byte)
  /-- The host inspects one byte of `DATA` between commands (R60). -/
  | getData (addr : Word)
  /-- Power-on reset, an external event (70_reset_and_hazards.md R260). -/
  | powerOn
  deriving DecidableEq, Repr

/-- A statement of the listing notation of 30_encoding.md rules R100 and R101, with its numbers as written (naturals; their
ranges are checked by `AsmStmt.wf`). -/
inductive AsmStmt where
  /-- `wr REG, value` -/
  | wr (r : Reg) (value : Nat)
  /-- `rd REG` -/
  | rd (r : Reg)
  /-- `md5.hash` -/
  | md5Hash
  /-- `rc4.setkey` -/
  | rc4SetKey
  /-- `rc4.setiv imm8` -/
  | rc4SetIv (imm8 : Nat)
  /-- `rc4.crypt` -/
  | rc4Crypt
  /-- `rc4.stream` -/
  | rc4Stream
  /-- `rc4.reset` -/
  | rc4Reset
  /-- pseudo-instruction `hash p, n` -/
  | hash (p n : Nat)
  /-- pseudo-instruction `setkey p, n` -/
  | setKey (p n : Nat)
  /-- pseudo-instruction `crypt p, n` -/
  | crypt (p n : Nat)
  /-- pseudo-instruction `stream p, n, off` -/
  | stream (p n off : Nat)
  deriving DecidableEq, Repr

/-- The directives of rule R100: what the start state has in `DATA`; they are no transactions. -/
inductive Directive where
  /-- `.data addr: b0 b1 ...` -/
  | data (addr : Nat) (bytes : List Byte)
  /-- `.ascii addr: "text"` -/
  | ascii (addr : Nat) (text : String)
  deriving DecidableEq, Repr

end Sys2Proof
end

