-- ==== Sys2Proof/WellFormed.lean ====
section
/-! DEFINITION. Which terms the hardware and its listing notation admit. -/

namespace Sys2Proof

/-- Every term of `Instr` is a command the host can issue: `imm8` is eight bits by its type and every value of it is legal
(41_rc4_ksa.md R162); the other commands carry nothing in the word (30_encoding.md R92). -/
def Instr.wf : Instr → Bool
  | .md5Hash => true
  | .rc4SetKey => true
  | .rc4SetIv _ => true
  | .rc4Crypt => true
  | .rc4Stream => true
  | .rc4Reset => true

/-- A number that fits a 32-bit register (R21). -/
def fits32 (n : Nat) : Bool := decide (n < 2 ^ 32)

/-- The ranges of the numbers of a listing (30_encoding.md R100, R101): 32-bit register values, `0 <= imm8 <= 255`, a 64-bit
offset. -/
def AsmStmt.wf : AsmStmt → Bool
  | .wr _ value => fits32 value
  | .rd _ => true
  | .md5Hash => true
  | .rc4SetKey => true
  | .rc4SetIv imm8 => decide (imm8 ≤ 255)
  | .rc4Crypt => true
  | .rc4Stream => true
  | .rc4Reset => true
  | .hash p n => fits32 p && fits32 n
  | .setKey p n => fits32 p && fits32 n
  | .crypt p n => fits32 p && fits32 n
  | .stream p n off => fits32 p && fits32 n && decide (off < 2 ^ 64)

end Sys2Proof
end

