-- ==== Sys2Proof/Decode.lean ====
section
/-! DEFINITION. Command words to commands and back (30_encoding.md R90 to R97), and register indices to register names
(10_state.md R21). -/

namespace Sys2Proof

/-- Why a word is no command (30_encoding.md R97). The engine reports all of them as `ERR_ILLEGAL`. -/
inductive DecodeError where
  /-- `w[31:16] != 0`. -/
  | reservedBits
  /-- A format Z word with `w[15:8] != 0`. -/
  | immediateBits
  /-- `op` is 0x00, in 0x02..0x0F, or in 0x15..0xFF. -/
  | unassignedOp
  deriving DecidableEq, Repr

/-- `op = w[7:0]` (R91). -/
abbrev opField (w : Word) : Byte := w.extractLsb' 0 8

/-- `imm8 = w[15:8]` (R91), used as it stands (R93). -/
abbrev immField (w : Word) : Byte := w.extractLsb' 8 8

/-- `rsv = w[31:16]` (R91). -/
abbrev rsvField (w : Word) : BitVec 16 := w.extractLsb' 16 16

/-- A format Z command: bits 15:8 must be 0 too (R92). -/
def decodeZ (imm : Byte) (i : Instr) : Except DecodeError Instr :=
  if imm = 0x00#8 then .ok i else .error .immediateBits

/-- The command of an operation code (R95), for a word whose reserved bits are 0. -/
def decodeOp (op imm : Byte) : Except DecodeError Instr :=
  if op = 0x01#8 then decodeZ imm .md5Hash
  else if op = 0x10#8 then decodeZ imm .rc4SetKey
  else if op = 0x11#8 then .ok (.rc4SetIv imm)
  else if op = 0x12#8 then decodeZ imm .rc4Crypt
  else if op = 0x13#8 then decodeZ imm .rc4Stream
  else if op = 0x14#8 then decodeZ imm .rc4Reset
  else .error .unassignedOp

/-- The decoder: total, and it reads nothing but the word (R90, R95, R97). -/
def decode (w : Word) : Except DecodeError Instr :=
  if rsvField w = 0x0000#16 then decodeOp (opField w) (immField w) else .error .reservedBits

/-- The encoder: the words of 30_encoding.md R100. -/
def encode : Instr → Word
  | .md5Hash => 0x00000001#32
  | .rc4SetKey => 0x00000010#32
  | .rc4SetIv imm8 => 0x00000011#32 ||| (imm8.zeroExtend 32 <<< 8)
  | .rc4Crypt => 0x00000012#32
  | .rc4Stream => 0x00000013#32
  | .rc4Reset => 0x00000014#32

/-- A row of the opcode map: `w` selects it when `(w & mask) = pattern` (R95). -/
structure OpcodeRow where
  mnemonic : String
  mask : Word
  pattern : Word
  deriving DecidableEq, Repr

/-- The row of each command in the map of rule R95. -/
def opcodeRow : Instr → OpcodeRow
  | .md5Hash => ⟨"MD5.HASH", 0xFFFFFFFF#32, 0x00000001#32⟩
  | .rc4SetKey => ⟨"RC4.SETKEY", 0xFFFFFFFF#32, 0x00000010#32⟩
  | .rc4SetIv _ => ⟨"RC4.SETIV", 0xFFFF00FF#32, 0x00000011#32⟩
  | .rc4Crypt => ⟨"RC4.CRYPT", 0xFFFFFFFF#32, 0x00000012#32⟩
  | .rc4Stream => ⟨"RC4.STREAM", 0xFFFFFFFF#32, 0x00000013#32⟩
  | .rc4Reset => ⟨"RC4.RESET", 0xFFFFFFFF#32, 0x00000014#32⟩

/-- The six rows of rule R95. -/
def opcodeTable : List OpcodeRow :=
  [opcodeRow .md5Hash, opcodeRow .rc4SetKey, opcodeRow (.rc4SetIv 0), opcodeRow .rc4Crypt, opcodeRow .rc4Stream,
   opcodeRow .rc4Reset]

/-- The instruction the decoder reads from a word numbered as the opcode table numbers it. A command is one 32-bit word written
whole to `CMD` (R91), so no byte order enters. -/
def decodeTableWord (nbits w : Nat) : Option Instr :=
  if nbits ≤ 32 then
    match decode (BitVec.ofNat 32 (w % 2 ^ nbits)) with
    | .ok i => some i
    | .error _ => none
  else none

/-- The register an index selects; `none` for the reserved indices 0x0A, 0x0B and 0x10 to 0xFF (10_state.md R21). -/
def decodeReg (idx : BitVec 8) : Option Reg :=
  match idx.toNat with
  | 0x00 => some .cmd
  | 0x01 => some .status
  | 0x02 => some .ptr
  | 0x03 => some .len
  | 0x04 => some .offLo
  | 0x05 => some .offHi
  | 0x06 => some .posLo
  | 0x07 => some .posHi
  | 0x08 => some .iv
  | 0x09 => some .keyLen
  | 0x0C => some .digest0
  | 0x0D => some .digest1
  | 0x0E => some .digest2
  | 0x0F => some .digest3
  | _ => none

/-- The index of each register (R21). -/
def regIndex : Reg → BitVec 8
  | .cmd => 0x00#8
  | .status => 0x01#8
  | .ptr => 0x02#8
  | .len => 0x03#8
  | .offLo => 0x04#8
  | .offHi => 0x05#8
  | .posLo => 0x06#8
  | .posHi => 0x07#8
  | .iv => 0x08#8
  | .keyLen => 0x09#8
  | .digest0 => 0x0C#8
  | .digest1 => 0x0D#8
  | .digest2 => 0x0E#8
  | .digest3 => 0x0F#8

end Sys2Proof
end

