-- ==== Sys2Proof/Config.lean ====
section
/-! DEFINITION. What is fixed for one engine, and the free values the spec leaves open. -/

namespace Sys2Proof

/-- The one open parameter of the spec, `DATA_SIZE` (00_scope.md R7; 92_eei_decisions.md, open parameters): an argument of the
model. The machine's state carries it, no step changes it, and a claim over every state holds for every size. -/
structure Config where
  /-- `DATA_SIZE`: the number of bytes of `DATA`. -/
  dataSize : Nat
  deriving DecidableEq, Repr

/-- `1 <= DATA_SIZE <= 2^32` (R7, R60). -/
abbrev Config.wf (c : Config) : Prop := 1 ≤ c.dataSize ∧ c.dataSize ≤ 2 ^ 32

/-- The size the spec's own test programs use, `DATA_SIZE = 0x1000` (92_eei_decisions.md, open parameters).
DESIGN CHOICE (log entry 1): `State.reset` needs one size; the spec leaves it open. -/
def Config.testPrograms : Config := ⟨0x1000⟩

/-- FREE VALUE (log entry 4): word `k` of `H` once an `MD5.HASH` has used it as scratch, for the `n`-th free HashState. The spec
says HashState is unspecified between commands (10_state.md R29, R40; 93_implementation_defined.md U8). -/
opaque Config.freeHashWord : Nat → Nat → Word

/-- FREE VALUE (log entry 4): `COUNT` between commands, as `Config.freeHashWord`. -/
opaque Config.freeHashCount : Nat → Dword

/-- FREE VALUE (log entry 4): byte `k` of `BUF` between commands, as `Config.freeHashWord`. -/
opaque Config.freeHashByte : Nat → Nat → Byte

/-- FREE VALUE (log entry 4): `BUFLEN` between commands, as `Config.freeHashWord`; the bound 0..63 is the spec's (R28). -/
opaque Config.freeHashFill : Nat → Fin 64

end Sys2Proof
end

