-- ==== Sys2Proof/Machine/State.lean ====
section
/-! DEFINITION. The state of one engine (10_state.md R20) with its host port, the reasons a step can stop, and the state after
power-on reset (R40). -/

namespace Sys2Proof.Machine

/-- Four 32-bit words: the accumulator `H[0..3]` and the working registers `a`, `b`, `c`, `d` (10_state.md R28, R30), the word
of index 0 first. -/
structure Quad where
  a : Word
  b : Word
  c : Word
  d : Word
  deriving DecidableEq, Repr

/-- HashState (R28): the scratch of one `MD5.HASH`, unspecified between commands (R29). -/
structure HashState where
  /-- `H[0..3]`. -/
  h : Quad
  /-- `COUNT`, the message bytes absorbed so far. -/
  count : Dword
  /-- `BUF[0..63]`. -/
  buf : Vector Byte 64
  /-- `BUFLEN`, in 0..63. -/
  bufLen : Fin 64
  deriving DecidableEq, Repr

/-- The permutation box and its two running indices (R33). -/
structure PermBox where
  /-- `BOX[0..255]`. -/
  box : Vector Byte 256
  /-- `A`. -/
  a : Byte
  /-- `B`. -/
  b : Byte
  deriving DecidableEq, Repr

/-- The values `STATUS.ERR` can hold (60_exceptions.md R231); codes 4 to 15 are never produced. -/
inductive ErrCode where
  /-- 0 `OK`: the most recent command succeeded. -/
  | ok
  /-- 1 `ERR_ILLEGAL`: the word matches no command. -/
  | illegal
  /-- 2 `ERR_RANGE`: the buffer does not lie inside `DATA`. -/
  | range
  /-- 3 `ERR_NOKEY`: the key schedule had to run and `KEYLEN = 0`. -/
  | noKey
  deriving DecidableEq, Repr

/-- What the host got back: the 32 bits of an `RD`, or a `DATA` byte it inspected. -/
inductive Reply where
  | word (v : Word)
  | byte (v : Byte)
  deriving DecidableEq, Repr

/-- `DATA` as a sparse list of bytes, in the canonical form `Memory.wf`. -/
abbrev Memory := List Host.Cell

/-- The state of one engine instance (R20), and below it the model's own fields. -/
structure State where
  /-- `DATA_SIZE`, the parameter of the model: no step changes it (R39). -/
  cfg : Config
  /-- `PTR` (R22). -/
  ptr : Word
  /-- `LEN` (R22). -/
  len : Word
  /-- `OFF_LO` (R22). -/
  offLo : Word
  /-- `OFF_HI` (R22). -/
  offHi : Word
  /-- `STATUS.INIT` (R24). -/
  init : Bool
  /-- `STATUS.ERR` (R25). -/
  err : ErrCode
  /-- `DIGEST[0..15]` (R27). -/
  digest : Vector Byte 16
  /-- HashState (R28, R29). -/
  hash : HashState
  /-- `IV` (R31). -/
  iv : Byte
  /-- `KEYLEN` (R32). -/
  keyLen : Word
  /-- `KEY[0..254]` (R32). -/
  key : Vector Byte 255
  /-- `BOX`, `A`, `B` (R33). -/
  perm : PermBox
  /-- `POS` (R35). -/
  pos : Dword
  /-- `DATA` (R37). -/
  data : Memory
  /-- The host's side, MODEL'S OWN (log entry 2): what the host does next, in order. -/
  inbox : List HostOp
  /-- The host's side, MODEL'S OWN (log entry 2): what the engine answered, oldest first. -/
  replies : List Reply
  /-- MODEL'S OWN (log entry 4): how many free HashStates have been used. -/
  freeCount : Nat
  deriving DecidableEq, Repr

/-- The reasons the machine stops. -/
inductive Fault where
  /-- An access to a `DATA` address at or above `DATA_SIZE`, which does not exist (20_memory.md R61, R67). Raised by `memRead` and
  `memWrite`. Every command checks its buffer first, so only a `DATA` access of the host's own (`HostOp.putData`, `getData`)
  reaches it. Safe: the machine stops where the spec gives the access no meaning. -/
  | noSuchAddress (addr : Nat)
  deriving DecidableEq, Repr

/-- The reasons the model gives no meaning. -/
inductive Refusal where
  /-- An instruction that has no meaning in `exec` yet. No arm raises it: every command has its meaning. Safe. -/
  | notModelled (mnemonic : String)
  deriving DecidableEq, Repr

/-- The named reset value of HashState. DESIGN CHOICE (log entry 3): the spec leaves it unspecified (R40). -/
def HashState.reset : HashState :=
  { h := ⟨0, 0, 0, 0⟩, count := 0, buf := Vector.replicate 64 0, bufLen := 0 }

/-- The permutation box after power-on: `A = B = 0` (R40); the contents of `BOX` are a DESIGN CHOICE (log entry 3). -/
def PermBox.reset : PermBox :=
  { box := Vector.replicate 256 0, a := 0, b := 0 }

/-- Power-on reset of an engine with the parameter `cfg`: the "power-on reset" column of R40. `KEY`, `BOX`, HashState and `DATA`,
which R40 leaves unspecified, have the values named in log entries 3 and 5. -/
def State.powerOn (cfg : Config) : State :=
  { cfg := cfg
    ptr := 0, len := 0, offLo := 0, offHi := 0
    init := false
    err := .ok
    digest := Vector.replicate 16 0
    hash := HashState.reset
    iv := 0
    keyLen := 0
    key := Vector.replicate 255 0
    perm := PermBox.reset
    pos := 0
    data := []
    inbox := [], replies := [], freeCount := 0 }

/-- The machine right after reset, with the `DATA_SIZE` of the spec's test programs (log entry 1). It waits for the first host
transaction (R41). -/
def State.reset : State := State.powerOn Config.testPrograms

end Sys2Proof.Machine
end

