-- ==== Sys2Proof/Machine/Ops.lean ====
section
/-! DEFINITION. The operations every command shares: ascending loops, bytes and words, `DATA` accesses, raising an error,
finishing a command. -/

namespace Sys2Proof.Machine

/-- `for i in start .. start+n-1 (ascending)`: the loop of every rule's pseudocode. -/
def forUp {σ : Type} (f : Nat → σ → σ) : (n start : Nat) → σ → σ
  | 0, _, s => s
  | n + 1, i, s => forUp f n (i + 1) (f i s)

/-! ## Bytes and words (00_scope.md R9, R10) -/

/-- `rotl32(x, n)`, for `1 <= n <= 31` (R9). -/
def rotl32 (x : Word) (n : Nat) : Word := (x <<< n) ||| (x >>> (32 - n))

/-- `le32(b0, b1, b2, b3)`: the first byte is the least significant (R10). -/
def le32 (b0 b1 b2 b3 : Byte) : Word := b3 ++ b2 ++ b1 ++ b0

/-- Byte `k` of `ser32(w)`: `w[8k+7:8k]` (R10). -/
def ser32 (w : Word) (k : Nat) : Byte := w.extractLsb' (8 * k) 8

/-- Byte `k` of `ser64(v)`, least significant first (R10). -/
def ser64 (v : Dword) (k : Nat) : Byte := v.extractLsb' (8 * k) 8

/-! ## `DATA` (20_memory.md) -/

/-- What a `DATA` byte that nothing has written reads as. DESIGN CHOICE (log entry 5): the spec leaves it unspecified (R40). -/
def Memory.unlisted : Byte := 0x00#8

/-- The canonical form: addresses strictly rising, no entry equal to what an unlisted address reads as. -/
abbrev Memory.wf (m : Memory) : Prop :=
  m.Pairwise (fun x y => x.1 < y.1) ∧ ∀ c ∈ m, c.2 ≠ Memory.unlisted

/-- `DATA[a]`. -/
def Memory.peek : Memory → Nat → Byte
  | [], _ => Memory.unlisted
  | (k, x) :: m, a => if k = a then x else Memory.peek m a

/-- The cell for `v` at `a`, none where `a` then reads as an unlisted address. -/
def Memory.cell (a : Nat) (v : Byte) : Memory :=
  if v = Memory.unlisted then [] else [(a, v)]

/-- `DATA[a] <- v`, keeping the canonical form. -/
def Memory.poke : Memory → Nat → Byte → Memory
  | [], a, v => Memory.cell a v
  | (k, x) :: m, a, v =>
    if k < a then (k, x) :: Memory.poke m a v
    else if k = a then Memory.cell a v ++ m
    else Memory.cell a v ++ (k, x) :: m

/-- `MemRead(a, 1)`, defined for `a < DATA_SIZE` only (R11, R61). -/
def memRead (cfg : Config) (m : Memory) (a : Nat) : Except Fault Byte :=
  if a < cfg.dataSize then .ok (m.peek a) else .error (.noSuchAddress a)

/-- `MemWrite(a, 1, v)`, defined for `a < DATA_SIZE` only (R11, R61): the new `DATA`. -/
def memWrite (cfg : Config) (m : Memory) (a : Nat) (v : Byte) : Except Fault Memory :=
  if a < cfg.dataSize then .ok (m.poke a v) else .error (.noSuchAddress a)

/-- `MemRead(a, n)`: `n` bytes in ascending address order (R11). -/
def memReadBytes (cfg : Config) (m : Memory) : (a n : Nat) → Except Fault (List Byte)
  | _, 0 => .ok []
  | a, n + 1 => do
    let v ← memRead cfg m a
    let vs ← memReadBytes cfg m (a + 1) n
    .ok (v :: vs)

/-! ## The end of a command (60_exceptions.md R232) -/

/-- `raise <Error>`: the command ends, `STATUS.ERR` takes the error's code, nothing else changes (R232). Control goes nowhere and
there is no return (R236, R237). -/
def raise (e : ErrCode) (s : State) : State := { s with err := e }

/-- `STATUS.ERR <- 0`, the last step of every successful command (R25). -/
def succeed (s : State) : State := { s with err := .ok }

/-- The outcome of a meaning whose `DATA` accesses may name an address that does not exist. -/
def finish : Except Fault State → Host.Outcome State Fault Refusal
  | .ok s => .next s
  | .error f => .fault f

end Sys2Proof.Machine
end

