-- ==== Sys2Proof/Machine/Operands.lean ====
section
/-! DEFINITION. The implicit operands of the commands (30_encoding.md R94, 10_state.md R22) and the range check. -/

namespace Sys2Proof.Machine

/-- `InRange(p, n)`: `p + n <= DATA_SIZE` in the natural numbers (00_scope.md R17). -/
def inRange (cfg : Config) (p n : Word) : Bool := decide (p.toNat + n.toNat ≤ cfg.dataSize)

/-- `InRange(PTR, LEN)`, which every command that takes a buffer checks first (R17). -/
def bufferInRange (s : State) : Bool := inRange s.cfg s.ptr s.len

/-- The `DATA` address of the first byte of the buffer. -/
def bufStart (s : State) : Nat := s.ptr.toNat

/-- The length of the buffer in bytes. -/
def bufLength (s : State) : Nat := s.len.toNat

/-- `OFF = OFF_HI ++ OFF_LO` (R22). -/
def offset (s : State) : Dword := s.offHi ++ s.offLo

/-- The key bytes the key schedule uses, `m = min(key_length, 255)`, and the bytes of a key that are kept
(10_state.md R32, 41_rc4_ksa.md R164). -/
def keyBytesUsed (keyLen : Word) : Nat := min keyLen.toNat 255

end Sys2Proof.Machine
end

