-- ==== Sys2Proof/Machine/Flags.lean ====
section
/-! DEFINITION. `STATUS` and the register views of wider state (10_state.md R21, R25). The hardware has no condition codes. -/

namespace Sys2Proof.Machine

/-- The 4-bit code of each outcome (60_exceptions.md R231). -/
def ErrCode.code : ErrCode → BitVec 4
  | .ok => 0#4
  | .illegal => 1#4
  | .range => 2#4
  | .noKey => 3#4

/-- `STATUS`: bits 31:8 read 0, bits 7:4 = `ERR`, bits 3:1 read 0, bit 0 = `INIT` (10_state.md R25). -/
def statusWord (s : State) : Word := 0#24 ++ s.err.code ++ 0#3 ++ BitVec.ofBool s.init

/-- `POS[31:0]` (R21). -/
def posLow (s : State) : Word := s.pos.extractLsb' 0 32

/-- `POS[63:32]` (R21). -/
def posHigh (s : State) : Word := s.pos.extractLsb' 32 32

/-- `DIGEST0` to `DIGEST3`: `le32` of four digest bytes each (R21, 20_memory.md R63). -/
def digestWord (d : Vector Byte 16) : Fin 4 → Word
  | 0 => le32 d[0] d[1] d[2] d[3]
  | 1 => le32 d[4] d[5] d[6] d[7]
  | 2 => le32 d[8] d[9] d[10] d[11]
  | 3 => le32 d[12] d[13] d[14] d[15]

end Sys2Proof.Machine
end

