-- ==== Sys2Proof/Machine/Md5.lean ====
section
/-! DEFINITION. The MD5 unit and `MD5.HASH` (40_md5.md). The tables are the spec's (R121 to R125). -/

namespace Sys2Proof.Machine

/-- `INITV[0..3]` (R121). -/
def md5InitV : Quad := ⟨0x67452301#32, 0xEFCDAB89#32, 0x98BADCFE#32, 0x10325476#32⟩

/-- `K[0..15]` (R123). -/
def md5K1 : Vector Word 16 :=
  #v[0xd76aa478#32, 0xe8c7b756#32, 0x242070db#32, 0xc1bdceee#32,
     0xf57c0faf#32, 0x4787c62a#32, 0xa8304613#32, 0xfd469501#32,
     0x698098d8#32, 0x8b44f7af#32, 0xffff5bb1#32, 0x895cd7be#32,
     0x6b901122#32, 0xfd987193#32, 0xa679438e#32, 0x49b40821#32]

/-- `K[16..31]` (R123). -/
def md5K2 : Vector Word 16 :=
  #v[0xf61e2562#32, 0xc040b340#32, 0x265e5a51#32, 0xe9b6c7aa#32,
     0xd62f105d#32, 0x02441453#32, 0xd8a1e681#32, 0xe7d3fbc8#32,
     0x21e1cde6#32, 0xc33707d6#32, 0xf4d50d87#32, 0x455a14ed#32,
     0xa9e3e905#32, 0xfcefa3f8#32, 0x676f02d9#32, 0x8d2a4c8a#32]

/-- `K[32..47]` (R123). -/
def md5K3 : Vector Word 16 :=
  #v[0xfffa3942#32, 0x8771f681#32, 0x6d9d6122#32, 0xfde5380c#32,
     0xa4beea44#32, 0x4bdecfa9#32, 0xf6bb4b60#32, 0xbebfbc70#32,
     0x289b7ec6#32, 0xeaa127fa#32, 0xd4ef3085#32, 0x04881d05#32,
     0xd9d4d039#32, 0xe6db99e5#32, 0x1fa27cf8#32, 0xc4ac5665#32]

/-- `K[48..63]` (R123). -/
def md5K4 : Vector Word 16 :=
  #v[0xf4292244#32, 0x432aff97#32, 0xab9423a7#32, 0xfc93a039#32,
     0x655b59c3#32, 0x8f0ccc92#32, 0xffeff47d#32, 0x85845dd1#32,
     0x6fa87e4f#32, 0xfe2ce6e0#32, 0xa3014314#32, 0x4e0811a1#32,
     0xf7537e82#32, 0xbd3af235#32, 0x2ad7d2bb#32, 0xeb86d391#32]

/-- The per-step additive constants `K[0..63]` (R123). -/
def md5K : Vector Word 64 := md5K1 ++ md5K2 ++ md5K3 ++ md5K4

/-- The per-step rotation amounts `S[i]` (R124). -/
def md5S (i : Nat) : Nat :=
  match i / 16, i % 4 with
  | 0, 0 => 7 | 0, 1 => 12 | 0, 2 => 17 | 0, _ => 22
  | 1, 0 => 5 | 1, 1 => 9 | 1, 2 => 14 | 1, _ => 20
  | 2, 0 => 4 | 2, 1 => 11 | 2, 2 => 16 | 2, _ => 23
  | _, 0 => 6 | _, 1 => 10 | _, 2 => 15 | _, _ => 21

/-- The message word order `G[i]` (R125). -/
def md5G (i : Nat) : Nat :=
  match i / 16 with
  | 0 => i % 16
  | 1 => (5 * i + 1) % 16
  | 2 => (3 * i + 5) % 16
  | _ => (7 * i) % 16

/-- `F1` (R122). -/
def md5F1 (b c d : Word) : Word := d ^^^ (b &&& (c ^^^ d))

/-- `F2` (R122). -/
def md5F2 (b c d : Word) : Word := c ^^^ (d &&& (b ^^^ c))

/-- `F3` (R122). -/
def md5F3 (b c d : Word) : Word := b ^^^ c ^^^ d

/-- `F4` (R122). -/
def md5F4 (b c d : Word) : Word := c ^^^ (b ||| ~~~d)

/-- `F(i, b, c, d)`: the function of the round step `i` belongs to (R122). -/
def md5F (i : Nat) (b c d : Word) : Word :=
  match i / 16 with
  | 0 => md5F1 b c d
  | 1 => md5F2 b c d
  | 2 => md5F3 b c d
  | _ => md5F4 b c d

/-- `M[t]`, little-endian (20_memory.md R62); `t` is in 0..15. -/
def messageWord (blk : Vector Byte 64) (t : Nat) : Word :=
  le32 (blk.get (Fin.ofNat 64 (4 * t))) (blk.get (Fin.ofNat 64 (4 * t + 1)))
    (blk.get (Fin.ofNat 64 (4 * t + 2))) (blk.get (Fin.ofNat 64 (4 * t + 3)))

/-- The freshly computed value of `md5_step(i)` (R126). -/
def md5StepValue (blk : Vector Byte 64) (i : Nat) (r : Quad) : Word :=
  rotl32 (r.a + md5F i r.b r.c r.d + md5K.get (Fin.ofNat 64 i) + messageWord blk (md5G i)) (md5S i) + r.b

/-- `md5_step(i)` over the message words of `blk` (R126). -/
def md5Step (blk : Vector Byte 64) (i : Nat) (r : Quad) : Quad :=
  { a := r.d, b := md5StepValue blk i r, c := r.b, d := r.c }

/-- Accumulation into the running state, each word modulo 2^32 (R127). -/
def Quad.plus (x y : Quad) : Quad := { a := x.a + y.a, b := x.b + y.b, c := x.c + y.c, d := x.d + y.d }

/-- `md5_compress(blk)`: the new `H` (R127). -/
def md5Compress (h : Quad) (blk : Vector Byte 64) : Quad := h.plus (forUp (md5Step blk) 64 0 h)

/-- `md5_init()`; `BUF` need not be cleared (R128). -/
def md5Init (hs : HashState) : HashState := { hs with h := md5InitV, count := 0, bufLen := 0 }

/-- `md5_absorb_byte(v)` (R129): the block is compressed when it is full. -/
def md5AbsorbByte (hs : HashState) (v : Byte) : HashState :=
  let buf := hs.buf.set hs.bufLen v
  if room : hs.bufLen.val + 1 < 64 then
    { h := hs.h, count := hs.count + 1, buf := buf, bufLen := ⟨hs.bufLen.val + 1, room⟩ }
  else
    { h := md5Compress hs.h buf, count := hs.count + 1, buf := buf, bufLen := 0 }

/-- `md5_absorb_byte` for every byte of a message, in order. -/
def md5Absorb (hs : HashState) (msg : List Byte) : HashState := msg.foldl md5AbsorbByte hs

/-- `for k in lo .. hi-1: BUF[k] <- 0x00` (R130), empty where `hi <= lo`. -/
def zeroFill (lo hi : Nat) (buf : Vector Byte 64) : Vector Byte 64 :=
  forUp (fun k b => b.setIfInBounds k 0x00#8) (hi - lo) lo buf

/-- `BUF[56..63] <- ser64(L)` (R130). -/
def putLength (len : Dword) (buf : Vector Byte 64) : Vector Byte 64 :=
  forUp (fun k b => b.setIfInBounds (56 + k) (ser64 len k)) 8 0 buf

/-- `md5_final()`: padding in one or two blocks (R130). -/
def md5Final (hs : HashState) : HashState :=
  let r := hs.bufLen.val
  let bits : Dword := hs.count * 8
  let marked := hs.buf.set hs.bufLen 0x80#8
  if 56 ≤ r then
    let first := zeroFill (r + 1) 64 marked
    let h1 := md5Compress hs.h first
    let last := putLength bits (zeroFill 0 56 first)
    { h := md5Compress h1 last, count := hs.count, buf := last, bufLen := 0 }
  else
    let last := putLength bits (zeroFill (r + 1) 56 marked)
    { h := md5Compress hs.h last, count := hs.count, buf := last, bufLen := 0 }

/-- `md5_serialize()`: `DIGEST[4k .. 4k+3] <- ser32(H[k])` (R132). -/
def md5Serialize (h : Quad) : Vector Byte 16 :=
  #v[ser32 h.a 0, ser32 h.a 1, ser32 h.a 2, ser32 h.a 3, ser32 h.b 0, ser32 h.b 1, ser32 h.b 2, ser32 h.b 3,
     ser32 h.c 0, ser32 h.c 1, ser32 h.c 2, ser32 h.c 3, ser32 h.d 0, ser32 h.d 1, ser32 h.d 2, ser32 h.d 3]

/-- `md5_init`, one `md5_absorb_byte` per message byte, `md5_final` (R134). -/
def md5Run (hs : HashState) (msg : List Byte) : HashState := md5Final (md5Absorb (md5Init hs) msg)

/-- What HashState holds once a command has used it: nothing the spec gives, so a free value (10_state.md R29, log entry 4). -/
def freeHashState (n : Nat) : HashState :=
  { h := ⟨Config.freeHashWord n 0, Config.freeHashWord n 1, Config.freeHashWord n 2, Config.freeHashWord n 3⟩
    count := Config.freeHashCount n
    buf := Vector.ofFn (fun k => Config.freeHashByte n k.val)
    bufLen := Config.freeHashFill n }

/-- HashState given up at the end of a command that used it as scratch (R29). -/
def dropHashState (s : State) : State :=
  { s with hash := freeHashState s.freeCount, freeCount := s.freeCount + 1 }

/-- `MD5.HASH` (R134); the empty input gives sixteen zero bytes and touches no HashState (R135). -/
def execMd5Hash (s : State) : Host.Outcome State Fault Refusal :=
  if bufferInRange s = false then .next (raise .range s)
  else if s.len = 0 then .next (succeed { s with digest := Vector.replicate 16 0x00#8 })
  else finish (do
    let msg ← memReadBytes s.cfg s.data (bufStart s) (bufLength s)
    .ok (succeed (dropHashState { s with digest := md5Serialize (md5Run s.hash msg).h })))

end Sys2Proof.Machine
end

