-- ==== Sys2Proof/Machine/KeySchedule.lean ====
section
/-! DEFINITION. The RC4-variant key, IV and key schedule, `RC4.SETKEY` and `RC4.SETIV` (41_rc4_ksa.md). -/

namespace Sys2Proof.Machine

/-- `BOX[b]` for an 8-bit index. -/
def boxAt (t : Vector Byte 256) (b : Byte) : Byte := t[b.toNat]'b.isLt

/-- `BOX[b] <- v`. -/
def boxPut (t : Vector Byte 256) (b v : Byte) : Vector Byte 256 := t.set b.toNat v b.isLt

/-- `swap(BOX[i], BOX[j])`, the identity where `i = j` (00_scope.md R11). -/
def boxSwap (t : Vector Byte 256) (i j : Byte) : Vector Byte 256 :=
  boxPut (boxPut t i (boxAt t j)) j (boxAt t i)

/-- One step of `ksa_fill` on `BOX` and `IV` (R163). -/
def ksaFillStep (i : Nat) (p : Vector Byte 256 × Byte) : Vector Byte 256 × Byte :=
  (boxPut p.1 (BitVec.ofNat 8 i) (p.2 ^^^ 0xFF#8), p.2 + 1#8)

/-- `ksa_fill()`: the new `BOX` and the new `IV` (R163). -/
def ksaFill (box : Vector Byte 256) (iv : Byte) : Vector Byte 256 × Byte := forUp ksaFillStep 256 0 (box, iv)

/-- `KEY[i mod m]`, for `1 <= m <= 255` (R164, R167). -/
def keyByte (key : Vector Byte 255) (m i : Nat) : Byte := key.get (Fin.ofNat 255 (i % m))

/-- One step of `ksa_mix` on `BOX` and `j`: `j` is updated from `BOX[i]` before the swap, and the swap uses the new `j`
(R164). -/
def ksaMixStep (key : Vector Byte 255) (m i : Nat) (p : Vector Byte 256 × Byte) : Vector Byte 256 × Byte :=
  let j := p.2 + boxAt p.1 (BitVec.ofNat 8 i) + keyByte key m i
  (boxSwap p.1 (BitVec.ofNat 8 i) j, j)

/-- `ksa_mix()`: the new `BOX`; `j` starts at 0 and is discarded (R164). It requires `KEYLEN >= 1`; callers check (R168). -/
def ksaMix (key : Vector Byte 255) (keyLen : Word) (box : Vector Byte 256) : Vector Byte 256 :=
  (forUp (ksaMixStep key (keyBytesUsed keyLen)) 256 0 (box, 0x00#8)).1

/-- `ksa()`: fill, mix, clear the indices, mark the box initialised (R165). It requires `KEYLEN >= 1`; callers check (R168). -/
def ksa (s : State) : State :=
  let filled := ksaFill s.perm.box s.iv
  { s with
    perm := { box := ksaMix s.key s.keyLen filled.1, a := 0x00#8, b := 0x00#8 }
    iv := filled.2
    init := true }

/-- `KEY[k] <- bytes[k]` from index `k` on, ascending (R161). -/
def storeKey : (k : Nat) → List Byte → Vector Byte 255 → Vector Byte 255
  | _, [], key => key
  | k, v :: vs, key => storeKey (k + 1) vs (key.setIfInBounds k v)

/-- `RC4.SETKEY` (R161). -/
def execRc4SetKey (s : State) : Host.Outcome State Fault Refusal :=
  if bufferInRange s = false then .next (raise .range s)
  else finish (do
    let bytes ← memReadBytes s.cfg s.data (bufStart s) (keyBytesUsed s.len)
    .ok (succeed { s with key := storeKey 0 bytes s.key, keyLen := s.len }))

/-- `RC4.SETIV imm8` (R162). -/
def execRc4SetIv (imm8 : Byte) (s : State) : Host.Outcome State Fault Refusal :=
  .next (succeed { s with iv := imm8 })

end Sys2Proof.Machine
end

