-- ==== Sys2Proof/Machine/Prga.lean ====
section
/-! DEFINITION. The keystream engine and the one-shot command `RC4.CRYPT` (42_rc4_prga.md). -/

namespace Sys2Proof.Machine

/-- `prga_advance()` (R180): `B` is updated with `BOX[A]` after `A` has moved and before the swap. -/
def prgaAdvance (c : PermBox) : PermBox :=
  let a := c.a + 1#8
  let b := c.b + boxAt c.box a
  { box := boxSwap c.box a b, a := a, b := b }

/-- The output byte `BOX[(BOX[A] + BOX[B]) mod 256]` (R181). -/
def prgaByte (c : PermBox) : Byte := boxAt c.box (boxAt c.box c.a + boxAt c.box c.b)

/-- `prga_out()`: one advance, then the output byte read after the swap (R181). -/
def prgaOut (c : PermBox) : Byte × PermBox :=
  let c' := prgaAdvance c
  (prgaByte c', c')

/-- `prga_skip(n)`: `n` advance steps, no output (R182). -/
def prgaSkip (n : Nat) (c : PermBox) : PermBox := forUp (fun _ x => prgaAdvance x) n 0 c

/-- `xor_buffer()` over `n` bytes from `a` on, in place, ascending, one keystream step per byte (R183, 20_memory.md R65): the new
`DATA` and the new cipher state. -/
def xorBuffer (cfg : Config) : (n a : Nat) → Memory → PermBox → Except Fault (Memory × PermBox)
  | 0, _, m, c => .ok (m, c)
  | n + 1, a, m, c => do
    let v ← memRead cfg m a
    let m' ← memWrite cfg m a (v ^^^ (prgaOut c).1)
    xorBuffer cfg n (a + 1) m' (prgaOut c).2

/-- `xor_buffer()` over the buffer `[PTR, PTR+LEN)` of a command (R183). -/
def xorOperandBuffer (s : State) : Except Fault State := do
  let used ← xorBuffer s.cfg (bufLength s) (bufStart s) s.data s.perm
  .ok { s with data := used.1, perm := used.2 }

/-- `RC4.CRYPT` (R186): generate the box if needed, use it, invalidate it. -/
def execRc4Crypt (s : State) : Host.Outcome State Fault Refusal :=
  if bufferInRange s = false then .next (raise .range s)
  else if s.init = false ∧ s.keyLen = 0 then .next (raise .noKey s)
  else finish (do
    let used ← xorOperandBuffer (if s.init then s else ksa s)
    .ok (succeed { used with init := false }))

end Sys2Proof.Machine
end

