-- ==== Sys2Proof/Machine/Stream.lean ====
section
/-! DEFINITION. The seekable stream: `RC4.STREAM` and `RC4.RESET` (43_rc4_stream.md). -/

namespace Sys2Proof.Machine

/-- When `RC4.STREAM` restarts: `STATUS.INIT = 0` or `OFF != POS` (R202). -/
def streamRestarts (s : State) : Bool := !s.init || decide (offset s ≠ s.pos)

/-- A restart: the box rebuilt, `OFF` advance steps, `POS <- OFF` (R201). -/
def streamRestart (s : State) : State :=
  let fresh := ksa s
  { fresh with perm := prgaSkip (offset s).toNat fresh.perm, pos := offset s }

/-- `RC4.STREAM` (R201). -/
def execRc4Stream (s : State) : Host.Outcome State Fault Refusal :=
  if bufferInRange s = false then .next (raise .range s)
  else if streamRestarts s = true ∧ s.keyLen = 0 then .next (raise .noKey s)
  else finish (do
    let used ← xorOperandBuffer (if streamRestarts s then streamRestart s else s)
    .ok (succeed { used with pos := used.pos + s.len.zeroExtend 64 }))

/-- `RC4.RESET` (R205). -/
def execRc4Reset (s : State) : Host.Outcome State Fault Refusal :=
  .next (succeed { s with init := false, perm := { s.perm with a := 0x00#8, b := 0x00#8 }, pos := 0 })

end Sys2Proof.Machine
end

