-- ==== Sys2Proof/Machine/Dispatch.lean ====
section
/-! DEFINITION. One arm per command. -/

namespace Sys2Proof.Machine

def exec (i : Instr) (s : State) : Host.Outcome State Fault Refusal :=
  match i with
  | .md5Hash => Sys2Proof.Machine.execMd5Hash s
  | .rc4SetKey => Sys2Proof.Machine.execRc4SetKey s
  | .rc4SetIv imm8 => Sys2Proof.Machine.execRc4SetIv imm8 s
  | .rc4Crypt => Sys2Proof.Machine.execRc4Crypt s
  | .rc4Stream => Sys2Proof.Machine.execRc4Stream s
  | .rc4Reset => Sys2Proof.Machine.execRc4Reset s

end Sys2Proof.Machine
end

