-- ==== Sys2Proof/Machine/HostPort.lean ====
section
/-! DEFINITION. The host port: register transactions, the host's own `DATA` accesses, power-on reset (44_host_transactions.md,
20_memory.md R60, 70_reset_and_hazards.md R260). -/

namespace Sys2Proof.Machine

/-- A command word issued: decoded and run to completion, or `ERR_ILLEGAL` (30_encoding.md R90, 60_exceptions.md R233). -/
def executeCommand (w : Word) (s : State) : Host.Outcome State Fault Refusal :=
  match decode w with
  | .ok i => exec i s
  | .error _ => .next (raise .illegal s)

/-- `WR idx, value` (R220); a write to a read-only register or a reserved index is ignored (R222, R223). -/
def hostWr (idx : BitVec 8) (value : Word) (s : State) : Host.Outcome State Fault Refusal :=
  match decodeReg idx with
  | some .cmd => executeCommand value s
  | some .ptr => .next { s with ptr := value }
  | some .len => .next { s with len := value }
  | some .offLo => .next { s with offLo := value }
  | some .offHi => .next { s with offHi := value }
  | some .status => .next s
  | some .posLo => .next s
  | some .posHi => .next s
  | some .iv => .next s
  | some .keyLen => .next s
  | some .digest0 => .next s
  | some .digest1 => .next s
  | some .digest2 => .next s
  | some .digest3 => .next s
  | none => .next s

/-- The 32 bits `RD idx` returns (R221); a reserved index returns 0 (R223) and so does the write-only `CMD` (R222). -/
def readReg (idx : BitVec 8) (s : State) : Word :=
  match decodeReg idx with
  | some .cmd => 0#32
  | some .status => statusWord s
  | some .ptr => s.ptr
  | some .len => s.len
  | some .offLo => s.offLo
  | some .offHi => s.offHi
  | some .posLo => posLow s
  | some .posHi => posHigh s
  | some .iv => s.iv.zeroExtend 32
  | some .keyLen => s.keyLen
  | some .digest0 => digestWord s.digest 0
  | some .digest1 => digestWord s.digest 1
  | some .digest2 => digestWord s.digest 2
  | some .digest3 => digestWord s.digest 3
  | none => 0#32

/-- What the host gets back, appended on its side. -/
def reply (r : Reply) (s : State) : State := { s with replies := s.replies ++ [r] }

/-- `RD idx`: no state of the engine changes (R221). -/
def hostRd (idx : BitVec 8) (s : State) : Host.Outcome State Fault Refusal :=
  .next (reply (.word (readReg idx s)) s)

/-- The host loads a byte of `DATA` (20_memory.md R60). -/
def hostPutData (addr : Word) (v : Byte) (s : State) : Host.Outcome State Fault Refusal :=
  finish (do
    let m ← memWrite s.cfg s.data addr.toNat v
    .ok { s with data := m })

/-- The host inspects a byte of `DATA` (20_memory.md R60). -/
def hostGetData (addr : Word) (s : State) : Host.Outcome State Fault Refusal :=
  finish (do
    let v ← memRead s.cfg s.data addr.toNat
    .ok (reply (.byte v) s))

/-- Power-on reset (70_reset_and_hazards.md R260): the engine is as `State.powerOn` leaves it; the host's side, which is no state
of the engine, goes on, and free values stay fresh. -/
def hostPowerOn (s : State) : Host.Outcome State Fault Refusal :=
  .next { State.powerOn s.cfg with inbox := s.inbox, replies := s.replies, freeCount := s.freeCount }

/-- One thing the host does, from start to finish; nothing overlaps it (44_host_transactions.md R224). -/
def hostStep : HostOp → State → Host.Outcome State Fault Refusal
  | .wr idx value, s => hostWr idx value s
  | .rd idx, s => hostRd idx s
  | .putData addr v, s => hostPutData addr v s
  | .getData addr, s => hostGetData addr s
  | .powerOn, s => hostPowerOn s

end Sys2Proof.Machine
end

