-- ==== Sys2Proof/Machine/Step.lean ====
section
/-! DEFINITION. One step: the next host transaction, or idling. -/

namespace Sys2Proof.Machine

/-- One step. There is no program counter (10_state.md R23): the machine does what the host does next, and with nothing to do it
waits and keeps all of its state (R41, 60_exceptions.md R245). -/
def step (s : State) : Host.Outcome State Fault Refusal :=
  match s.inbox with
  | [] => .next s
  | op :: rest => hostStep op { s with inbox := rest }

/-- `s` with the command word `w` as the next thing the host does: `WR CMD, w` (30_encoding.md R90, log entry 2). -/
def State.withFetchWord (s : State) (nbits w : Nat) : State :=
  { s with inbox := .wr 0x00#8 (BitVec.ofNat 32 (w % 2 ^ nbits)) :: s.inbox }

end Sys2Proof.Machine
end

