-- ==== Sys2Proof/Machine/Assembler.lean ====
section
/-! DEFINITION. The listing notation: what each statement stands for (30_encoding.md R100, R101). It adds no behaviour. -/

namespace Sys2Proof.Machine

/-- `wr REG, value` for a number of a listing. -/
def asmWr (r : Reg) (value : Nat) : HostOp := .wr (regIndex r) (BitVec.ofNat 32 value)

/-- `wr CMD, <the word of i>`. -/
def asmCommand (i : Instr) : HostOp := .wr (regIndex .cmd) (encode i)

/-- The host transactions of each statement (R100) and pseudo-instruction (R101). -/
def expandStmt : AsmStmt → List HostOp
  | .wr r value => [asmWr r value]
  | .rd r => [.rd (regIndex r)]
  | .md5Hash => [asmCommand .md5Hash]
  | .rc4SetKey => [asmCommand .rc4SetKey]
  | .rc4SetIv imm8 => [asmCommand (.rc4SetIv (BitVec.ofNat 8 imm8))]
  | .rc4Crypt => [asmCommand .rc4Crypt]
  | .rc4Stream => [asmCommand .rc4Stream]
  | .rc4Reset => [asmCommand .rc4Reset]
  | .hash p n => [asmWr .ptr p, asmWr .len n, asmCommand .md5Hash]
  | .setKey p n => [asmWr .ptr p, asmWr .len n, asmCommand .rc4SetKey]
  | .crypt p n => [asmWr .ptr p, asmWr .len n, asmCommand .rc4Crypt]
  | .stream p n off =>
    [asmWr .ptr p, asmWr .len n, asmWr .offLo (off % 2 ^ 32), asmWr .offHi (off / 2 ^ 32), asmCommand .rc4Stream]

/-- A listing as the sequence of host transactions it stands for. -/
def assemble (listing : List AsmStmt) : List HostOp := listing.flatMap expandStmt

/-- `DATA[addr+k] = bytes[k]` in the start state. -/
def loadBytes (s : State) : Nat → List Byte → Except Fault State
  | _, [] => .ok s
  | addr, v :: vs => do
    let m ← memWrite s.cfg s.data addr v
    loadBytes { s with data := m } (addr + 1) vs

/-- The start state a directive describes (R100). -/
def loadDirective (s : State) : Directive → Except Fault State
  | .data addr bytes => loadBytes s addr bytes
  | .ascii addr text => loadBytes s addr (text.toList.map fun c => BitVec.ofNat 8 c.toNat)

end Sys2Proof.Machine
end

