-- ==== Sys2Proof/Machine/Reference.lean ====
section
/-! DEFINITION. The closed forms the spec's prose gives beside its pseudocode, in the terms claims use. No step calls any of them. -/

namespace Sys2Proof.Machine

/-! ## MD5 (40_md5.md R129 to R132) -/

/-- The padding of a message of `n` bytes: one 0x80, zero bytes until the length is 56 modulo 64, then the bit length as a
64-bit little-endian integer (R130). -/
def md5Padding (n : Nat) : List Byte :=
  0x80#8 :: List.replicate ((119 - n % 64) % 64) 0x00#8 ++ (List.range 8).map (ser64 (BitVec.ofNat 64 (8 * n)))

/-- The padded message. -/
def md5Pad (msg : List Byte) : List Byte := msg ++ md5Padding msg.length

/-- Block `q` of a byte sequence: its bytes `64q .. 64q+63` (20_memory.md R64). -/
def blockOf (bytes : List Byte) (q : Nat) : Vector Byte 64 :=
  Vector.ofFn (fun k => bytes.getD (64 * q + k.val) 0x00#8)

/-- The full 64-byte blocks of a byte sequence, in order. -/
def blocksOf (bytes : List Byte) : List (Vector Byte 64) := (List.range (bytes.length / 64)).map (blockOf bytes)

/-- The digest of a message of one byte or more: the blocks of the padded message compressed in order from `INITV`. -/
def md5Digest (msg : List Byte) : Vector Byte 16 :=
  md5Serialize ((blocksOf (md5Pad msg)).foldl md5Compress md5InitV)

/-- The bytes of the buffer, `DATA[PTR .. PTR+LEN-1]`. -/
def bufferBytes (s : State) : List Byte := (List.range (bufLength s)).map (fun k => s.data.peek (bufStart s + k))

/-! ## The cipher (41_rc4_ksa.md R166, 43_rc4_stream.md R204) -/

/-- The box `ksa()` makes from a key and an IV, with `A = B = 0` (R165, R166). -/
def generatedBox (key : Vector Byte 255) (keyLen : Word) (iv : Byte) : PermBox :=
  { box := ksaMix key keyLen (ksaFill (Vector.replicate 256 0x00#8) iv).1, a := 0x00#8, b := 0x00#8 }

/-- Keystream byte number `p` from a cipher state on: the output of the `(p+1)`-th `prga_out()` (R204). -/
def keystreamByte (c : PermBox) (p : Nat) : Byte := (prgaOut (prgaSkip p c)).1

/-- `BOX` holds each byte value once (10_state.md R34). -/
def IsPermutation (t : Vector Byte 256) : Prop := ∀ v : Byte, ∃ i : Byte, boxAt t i = v ∧ ∀ j : Byte, boxAt t j = v → j = i

/-- `DATA` byte `a` after the `n` bytes from `p` on were XORed with the keystream `ks`, its byte 0 at `p`. -/
def xoredByte (m : Memory) (p n : Nat) (ks : Nat → Byte) (a : Nat) : Byte :=
  if p ≤ a ∧ a < p + n then m.peek a ^^^ ks (a - p) else m.peek a

/-! ## The commands -/

/-- The key schedule has to run: the box is not initialised, or `RC4.STREAM` must restart (41_rc4_ksa.md R168). -/
def needsKeySchedule : Instr → State → Prop
  | .rc4Crypt, s => s.init = false
  | .rc4Stream, s => s.init = false ∨ offset s ≠ s.pos
  | .md5Hash, _ => False
  | .rc4SetKey, _ => False
  | .rc4SetIv _, _ => False
  | .rc4Reset, _ => False

/-- The command takes the buffer `[PTR, PTR+LEN)` (10_state.md R22). -/
def takesBuffer : Instr → Prop
  | .md5Hash => True
  | .rc4SetKey => True
  | .rc4SetIv _ => False
  | .rc4Crypt => True
  | .rc4Stream => True
  | .rc4Reset => False

/-- The buffer leaves `DATA`, the sum in the natural numbers (00_scope.md R17). -/
def outOfRange (s : State) : Prop := s.cfg.dataSize < s.ptr.toNat + s.len.toNat

/-- The operand registers as `wr PTR`, `wr LEN`, `wr OFF_LO`, `wr OFF_HI` leave them. -/
def withOperands (s : State) (p n : Word) (off : Dword) : State :=
  { s with ptr := p, len := n, offLo := off.extractLsb' 0 32, offHi := off.extractLsb' 32 32 }

/-- `s` with the hash side of `c`: `DIGEST`, HashState and the model's count of free values (00_scope.md R3). -/
def withHashOf (c s : State) : State := { s with digest := c.digest, hash := c.hash, freeCount := c.freeCount }

/-- `s` with the cipher side of `c` (R3). -/
def withCipherOf (c s : State) : State :=
  { s with init := c.init, iv := c.iv, keyLen := c.keyLen, key := c.key, perm := c.perm, pos := c.pos }

/-- An outcome with its next state changed. -/
def mapNext (f : State → State) : Host.Outcome State Fault Refusal → Host.Outcome State Fault Refusal
  | .next s => .next (f s)
  | .fault r => .fault r
  | .refused r => .refused r

end Sys2Proof.Machine
end

