-- ==== Sys2Proof/Safety.lean ====
section
/-! DEFINITION. What counts as a safe run, and the invariant every step keeps. -/

namespace Sys2Proof.Machine

/-- The invariant: the parameter is legal, `DATA` is canonical and lies inside the address space, and while `STATUS.INIT = 1` the
cipher state is a generated box advanced to `POS` (10_state.md R34, 43_rc4_stream.md R203). `n` is the number of advance steps;
`POS` counts them modulo 2^64. -/
structure State.Inv (s : State) : Prop where
  /-- `1 <= DATA_SIZE <= 2^32`. -/
  config : s.cfg.wf
  /-- `DATA` is in its canonical form. -/
  canonical : Memory.wf s.data
  /-- Every listed address exists. -/
  bounded : ∀ c ∈ s.data, c.1 < s.cfg.dataSize
  /-- An initialised box is one the key schedule made from a non-empty key, advanced to `POS`. -/
  generated : s.init = true → ∃ (key : Vector Byte 255) (keyLen : Word) (iv : Byte) (n : Nat),
    keyLen ≠ 0 ∧ n % 2 ^ 64 = s.pos.toNat ∧ s.perm = prgaSkip n (generatedBox key keyLen iv)

/-- A `DATA` access of the host's own names an address that exists (20_memory.md R67). -/
def addressExists (cfg : Config) : HostOp → Prop
  | .putData addr _ => addr.toNat < cfg.dataSize
  | .getData addr => addr.toNat < cfg.dataSize
  | .wr _ _ => True
  | .rd _ => True
  | .powerOn => True

/-- `k` steps of a run stop nowhere. -/
def RunsFor (k : Nat) (s : State) : Prop := ∃ t, Sys2Proof.core.run k s = .next t

/-- The values 70_reset_and_hazards.md R260 gives: operand registers 0, `STATUS = 0`, `DIGEST` all zero, `IV`, `KEYLEN`, `A`, `B`
and `POS` 0. It says nothing of what that rule leaves unspecified. -/
def AtPowerOnValues (t : State) : Prop :=
  t.ptr = 0 ∧ t.len = 0 ∧ t.offLo = 0 ∧ t.offHi = 0 ∧ statusWord t = 0 ∧ t.init = false ∧ t.err = .ok ∧
  (∀ k : Fin 16, t.digest.get k = 0x00#8) ∧ t.iv = 0x00#8 ∧ t.keyLen = 0 ∧ t.perm.a = 0x00#8 ∧ t.perm.b = 0x00#8 ∧ t.pos = 0

/-- Two states that differ at most in what the spec leaves unspecified: HashState (10_state.md R29), the key bytes at and above
`min(KEYLEN, 255)` (R32), and `BOX` while `STATUS.INIT = 0` (R33). `freeCount` is the model's own. -/
structure SameSpecified (s t : State) : Prop where
  cfg : s.cfg = t.cfg
  ptr : s.ptr = t.ptr
  len : s.len = t.len
  offLo : s.offLo = t.offLo
  offHi : s.offHi = t.offHi
  init : s.init = t.init
  err : s.err = t.err
  digest : s.digest = t.digest
  iv : s.iv = t.iv
  keyLen : s.keyLen = t.keyLen
  key : ∀ k : Fin 255, k.val < keyBytesUsed s.keyLen → s.key.get k = t.key.get k
  box : s.init = true → s.perm.box = t.perm.box
  idxA : s.perm.a = t.perm.a
  idxB : s.perm.b = t.perm.b
  pos : s.pos = t.pos
  data : s.data = t.data
  inbox : s.inbox = t.inbox
  replies : s.replies = t.replies

end Sys2Proof.Machine
end

