-- ==== Sys2Proof/Certificates/Slice0/Obligations.lean ====
section
/-! DEFINITION. The statements for the provers. They hold in every state the model has, unless a premise says otherwise. -/

open Sys2Proof Sys2Proof.Machine

/-! ## Encoding -/

/-- 30_encoding.md R95: a word selects a row of the opcode map when `(w & mask) = match`; the command decoded is the row's, and
its one operand is `w[15:8]`. The rows are written out. -/
def Obligations.DecodeFollowsTheOpcodeMap : Prop :=
  opcodeTable =
      [⟨"MD5.HASH", 0xFFFFFFFF#32, 0x00000001#32⟩, ⟨"RC4.SETKEY", 0xFFFFFFFF#32, 0x00000010#32⟩,
        ⟨"RC4.SETIV", 0xFFFF00FF#32, 0x00000011#32⟩, ⟨"RC4.CRYPT", 0xFFFFFFFF#32, 0x00000012#32⟩,
        ⟨"RC4.STREAM", 0xFFFFFFFF#32, 0x00000013#32⟩, ⟨"RC4.RESET", 0xFFFFFFFF#32, 0x00000014#32⟩] ∧
    (∀ i : Instr, opcodeRow i ∈ opcodeTable) ∧
    ∀ (w : Word) (i : Instr), decode w = .ok i ↔
      w &&& (opcodeRow i).mask = (opcodeRow i).pattern ∧ ∀ v, i = .rc4SetIv v → v = w.extractLsb' 8 8

/-- Decode and encode agree in both directions: every command is decoded from its own word and from no other. -/
def Obligations.DecodeInvertsEncode : Prop :=
  ∀ (w : Word) (i : Instr), i.wf = true → (decode w = .ok i ↔ w = encode i)

/-- 30_encoding.md R97: every word that matches no row is illegal and gives `ERR_ILLEGAL` with no other effect; the cases that
covers are those the rule lists, and no word executes as a no-op. -/
def Obligations.WordsOutsideTheMapAreIllegal : Prop :=
  (∀ (s : State) (w : Word) (rest : List HostOp), s.inbox = .wr 0x00#8 w :: rest →
    (∀ row ∈ opcodeTable, w &&& row.mask ≠ row.pattern) →
    step s = .next { s with inbox := rest, err := .illegal }) ∧
  ∀ w : Word, (∀ row ∈ opcodeTable, w &&& row.mask ≠ row.pattern) ↔
    (w.extractLsb' 0 8 = 0x00#8 ∨
      (0x02#8 ≤ w.extractLsb' 0 8 ∧ w.extractLsb' 0 8 ≤ 0x0F#8) ∨
      (0x15#8 ≤ w.extractLsb' 0 8 ∧ w.extractLsb' 0 8 ≤ 0xFF#8) ∨
      w.extractLsb' 16 16 ≠ 0#16 ∨
      (w.extractLsb' 0 8 ≠ 0x11#8 ∧ w.extractLsb' 8 8 ≠ 0x00#8))

/-- A few words of the spec, bit by bit, and the command each stands for (30_encoding.md R95, R100; 95_test_vectors.md V50 to V53). -/
def Obligations.SpecWordsDecode : Prop :=
  decode 0b00000000000000000000000000000001#32 = .ok .md5Hash ∧
  decode 0b00000000000000000000000000010000#32 = .ok .rc4SetKey ∧
  decode 0b00000000000000000010101000010001#32 = .ok (.rc4SetIv 0x2A#8) ∧
  decode 0b00000000000000000000000000010010#32 = .ok .rc4Crypt ∧
  decode 0b00000000000000000000000000010011#32 = .ok .rc4Stream ∧
  decode 0b00000000000000000000000000010100#32 = .ok .rc4Reset ∧
  decode 0x00000000#32 = .error .unassignedOp ∧ decode 0x00000101#32 = .error .immediateBits ∧
  decode 0x00010014#32 = .error .reservedBits ∧ decode 0x00000015#32 = .error .unassignedOp

/-! ## The step and the host port -/

/-- A step runs the decoded command: where the host's next transaction writes a command word to `CMD`, step is exec of that
command on the state with the transaction taken off the host's list (30_encoding.md R90; the list is log entry 2). -/
def Obligations.StepRunsTheDecodedCommand : Prop :=
  ∀ (s : State) (w : Word) (rest : List HostOp) (i : Instr), s.inbox = .wr 0x00#8 w :: rest → decode w = .ok i →
    i.wf = true → step s = exec i { s with inbox := rest }

/-- 44_host_transactions.md R220: `WR` by index. Index 0x00 issues the value as a command; the four operand registers take the
value; any other index has no effect, so `STATUS` is unchanged by a `WR` to an index other than 0x00. -/
def Obligations.WrByIndex : Prop :=
  ∀ (s : State) (idx : BitVec 8) (v : Word) (rest : List HostOp), s.inbox = .wr idx v :: rest →
    (idx = 0x00#8 → step s = executeCommand v { s with inbox := rest }) ∧
    (idx = 0x02#8 → step s = .next { s with inbox := rest, ptr := v }) ∧
    (idx = 0x03#8 → step s = .next { s with inbox := rest, len := v }) ∧
    (idx = 0x04#8 → step s = .next { s with inbox := rest, offLo := v }) ∧
    (idx = 0x05#8 → step s = .next { s with inbox := rest, offHi := v }) ∧
    (idx ≠ 0x00#8 → idx ≠ 0x02#8 → idx ≠ 0x03#8 → idx ≠ 0x04#8 → idx ≠ 0x05#8 → step s = .next { s with inbox := rest })

/-- 44_host_transactions.md R221: `RD` by index, for every index; it changes no state of the engine. -/
def Obligations.RdByIndex : Prop :=
  ∀ (s : State) (idx : BitVec 8) (rest : List HostOp), s.inbox = .rd idx :: rest →
    ∃ v : Word, step s = .next { s with inbox := rest, replies := s.replies ++ [.word v] } ∧
      (idx = 0x00#8 → v = 0#32) ∧
      (idx = 0x01#8 → v = (s.err.code.zeroExtend 32 <<< 4) ||| (BitVec.ofBool s.init).zeroExtend 32) ∧
      (idx = 0x02#8 → v = s.ptr) ∧ (idx = 0x03#8 → v = s.len) ∧
      (idx = 0x04#8 → v = s.offLo) ∧ (idx = 0x05#8 → v = s.offHi) ∧
      (idx = 0x06#8 → v = s.pos.extractLsb' 0 32) ∧ (idx = 0x07#8 → v = s.pos.extractLsb' 32 32) ∧
      (idx = 0x08#8 → v = s.iv.zeroExtend 32) ∧ (idx = 0x09#8 → v = s.keyLen) ∧
      (idx = 0x0C#8 → v = le32 s.digest[0] s.digest[1] s.digest[2] s.digest[3]) ∧
      (idx = 0x0D#8 → v = le32 s.digest[4] s.digest[5] s.digest[6] s.digest[7]) ∧
      (idx = 0x0E#8 → v = le32 s.digest[8] s.digest[9] s.digest[10] s.digest[11]) ∧
      (idx = 0x0F#8 → v = le32 s.digest[12] s.digest[13] s.digest[14] s.digest[15]) ∧
      (idx = 0x0A#8 ∨ idx = 0x0B#8 ∨ 0x10#8 ≤ idx → v = 0#32)

/-- 44_host_transactions.md R222, R223: a `WR` to a read-only register or to a reserved index changes no state; an `RD` of the
write-only `CMD` or of a reserved index returns 0; `POS`, `IV` and `KEYLEN` change only through `RC4.STREAM` and `RC4.RESET`,
`RC4.SETIV`, and `RC4.SETKEY` (power-on reset apart). -/
def Obligations.ReadOnlyAndReservedIndices : Prop :=
  (∀ (s : State) (idx : BitVec 8) (v : Word) (rest : List HostOp), s.inbox = .wr idx v :: rest →
    (idx ∈ [0x01#8, 0x06#8, 0x07#8, 0x08#8, 0x09#8, 0x0C#8, 0x0D#8, 0x0E#8, 0x0F#8] ∨ idx = 0x0A#8 ∨ idx = 0x0B#8 ∨ 0x10#8 ≤ idx) →
    step s = .next { s with inbox := rest }) ∧
  (∀ (s : State) (idx : BitVec 8) (rest : List HostOp), s.inbox = .rd idx :: rest →
    (idx = 0x00#8 ∨ idx = 0x0A#8 ∨ idx = 0x0B#8 ∨ 0x10#8 ≤ idx) →
    step s = .next { s with inbox := rest, replies := s.replies ++ [.word 0#32] }) ∧
  ∀ s t : State, step s = .next t → (∀ rest, s.inbox ≠ .powerOn :: rest) →
    ((∀ w rest i, s.inbox = .wr 0x00#8 w :: rest → decode w = .ok i → i ≠ .rc4Stream ∧ i ≠ .rc4Reset) → t.pos = s.pos) ∧
    ((∀ w rest v, s.inbox = .wr 0x00#8 w :: rest → decode w ≠ .ok (.rc4SetIv v)) → t.iv = s.iv) ∧
    ((∀ w rest, s.inbox = .wr 0x00#8 w :: rest → decode w ≠ .ok .rc4SetKey) → t.keyLen = s.keyLen)

/-- 10_state.md R25, 60_exceptions.md R231: `STATUS` bit 0 is `INIT`, bits 7:4 are the code of `ERR` (0 to 3), bits 3:1 and 31:8
read 0; and every command, whatever its outcome, writes `ERR`: the code after it does not depend on the code before it. -/
def Obligations.StatusLayout : Prop :=
  (∀ s : State, (statusWord s).extractLsb' 0 1 = BitVec.ofBool s.init ∧ (statusWord s).extractLsb' 1 3 = 0#3 ∧
    (statusWord s).extractLsb' 8 24 = 0#24 ∧
    (statusWord s).extractLsb' 4 4 =
      (match s.err with | .ok => 0#4 | .illegal => 1#4 | .range => 2#4 | .noKey => 3#4)) ∧
  (∀ (w : Word) (s t : State) (e : ErrCode), executeCommand w s = .next t →
    executeCommand w { s with err := e } = .next t) ∧
  (∀ (s t : State) (op : HostOp) (rest : List HostOp), s.inbox = op :: rest → step s = .next t →
    (∃ idx v, idx ≠ 0x00#8 ∧ op = .wr idx v) ∨ (∃ idx, op = .rd idx) → statusWord t = statusWord s)

/-- 20_memory.md R60, R67: what the host puts into `DATA` is what it reads back, at that address and, undisturbed, at every other;
reading has no side effect on the engine. An address at or above `DATA_SIZE` does not exist; that the machine stops there, by
name, is the model's choice (log entry 6). -/
def Obligations.HostDataAccess : Prop :=
  (∀ (s : State) (addr : Word) (v : Byte) (rest : List HostOp), Memory.wf s.data → s.inbox = .putData addr v :: rest →
    (addr.toNat < s.cfg.dataSize → ∃ m, step s = .next { s with inbox := rest, data := m } ∧ Memory.wf m ∧
      m.peek addr.toNat = v ∧ ∀ a, a ≠ addr.toNat → m.peek a = s.data.peek a) ∧
    (s.cfg.dataSize ≤ addr.toNat → step s = .fault (.noSuchAddress addr.toNat))) ∧
  (∀ (s : State) (addr : Word) (rest : List HostOp), s.inbox = .getData addr :: rest →
    (addr.toNat < s.cfg.dataSize →
      step s = .next { s with inbox := rest, replies := s.replies ++ [.byte (s.data.peek addr.toNat)] }) ∧
    (s.cfg.dataSize ≤ addr.toNat → step s = .fault (.noSuchAddress addr.toNat)))

/-- Between transactions the engine waits and keeps all of its state (10_state.md R41, 60_exceptions.md R245; that a step with
nothing to do is an idle step is log entry 2). -/
def Obligations.IdleStepKeepsAllState : Prop := ∀ s : State, s.inbox = [] → step s = .next s

/-- The only thing that stops the machine is a `DATA` access of the host's own at an address that does not exist: every other
step answers a next state (log entry 6). -/
def Obligations.OnlyStrayHostAccessStops : Prop :=
  ∀ s : State, (∃ t, step s = .next t) ↔ ∀ op rest, s.inbox = op :: rest → addressExists s.cfg op

/-- 30_encoding.md R101: each pseudo-instruction is its operand writes followed by its command, and running it runs the command
with those operands, for every operand in the notation's ranges. -/
def Obligations.PseudoInstructionsExpand : Prop :=
  (∀ p n off : Nat,
    expandStmt (.hash p n) = [.wr 0x02#8 (BitVec.ofNat 32 p), .wr 0x03#8 (BitVec.ofNat 32 n), .wr 0x00#8 0x00000001#32] ∧
    expandStmt (.setKey p n) = [.wr 0x02#8 (BitVec.ofNat 32 p), .wr 0x03#8 (BitVec.ofNat 32 n), .wr 0x00#8 0x00000010#32] ∧
    expandStmt (.crypt p n) = [.wr 0x02#8 (BitVec.ofNat 32 p), .wr 0x03#8 (BitVec.ofNat 32 n), .wr 0x00#8 0x00000012#32] ∧
    expandStmt (.stream p n off) =
      [.wr 0x02#8 (BitVec.ofNat 32 p), .wr 0x03#8 (BitVec.ofNat 32 n), .wr 0x04#8 (BitVec.ofNat 32 (off % 2 ^ 32)),
        .wr 0x05#8 (BitVec.ofNat 32 (off / 2 ^ 32)), .wr 0x00#8 0x00000013#32]) ∧
  ∀ (s : State) (rest : List HostOp) (p n off : Nat), p < 2 ^ 32 → n < 2 ^ 32 → off < 2 ^ 64 →
    (s.inbox = expandStmt (.hash p n) ++ rest → Host.Core.run Sys2Proof.core 3 s =
      exec .md5Hash { s with inbox := rest, ptr := BitVec.ofNat 32 p, len := BitVec.ofNat 32 n }) ∧
    (s.inbox = expandStmt (.setKey p n) ++ rest → Host.Core.run Sys2Proof.core 3 s =
      exec .rc4SetKey { s with inbox := rest, ptr := BitVec.ofNat 32 p, len := BitVec.ofNat 32 n }) ∧
    (s.inbox = expandStmt (.crypt p n) ++ rest → Host.Core.run Sys2Proof.core 3 s =
      exec .rc4Crypt { s with inbox := rest, ptr := BitVec.ofNat 32 p, len := BitVec.ofNat 32 n }) ∧
    (s.inbox = expandStmt (.stream p n off) ++ rest → Host.Core.run Sys2Proof.core 5 s =
      exec .rc4Stream { withOperands s (BitVec.ofNat 32 p) (BitVec.ofNat 32 n) (BitVec.ofNat 64 off) with inbox := rest })

/-! ## Reset -/

/-- 70_reset_and_hazards.md R260: the state after power-on reset, at the machine's own reset and at a reset that comes later.
`KEY`, `BOX`, HashState and `DATA` are unspecified, so nothing is said of them. The cipher working state is the one `RC4.RESET`
gives, and nothing runs: only the host's own list goes on. -/
def Obligations.PowerOnResetValues : Prop :=
  AtPowerOnValues State.reset ∧ State.reset.inbox = [] ∧ (∀ cfg : Config, AtPowerOnValues (State.powerOn cfg)) ∧
  ∀ (s : State) (rest : List HostOp), s.inbox = .powerOn :: rest →
    ∃ t r, step s = .next t ∧ AtPowerOnValues t ∧ t.cfg = s.cfg ∧ t.inbox = rest ∧ t.replies = s.replies ∧
      exec .rc4Reset t = .next r ∧ t.init = r.init ∧ t.perm.a = r.perm.a ∧ t.perm.b = r.perm.b ∧ t.pos = r.pos

/-- The invariant holds after power-on reset, for every legal `DATA_SIZE`; the size of `State.reset` is log entry 1. -/
def Obligations.InvariantHoldsAtReset : Prop :=
  State.reset.Inv ∧ ∀ cfg : Config, cfg.wf → (State.powerOn cfg).Inv

/-- Every step keeps the invariant: `DATA` stays canonical and inside the address space, `DATA_SIZE` stays legal, and while
`STATUS.INIT = 1` the cipher state is a generated box advanced to `POS`. -/
def Obligations.EveryStepKeepsTheInvariant : Prop :=
  ∀ s t : State, s.Inv → step s = .next t → t.Inv ∧ t.cfg = s.cfg

/-- 10_state.md R34: whenever `STATUS.INIT = 1`, `BOX` is a permutation of 0..255. And 43_rc4_stream.md R203: then `A` is `POS`
modulo 256. The premise is the invariant; without it the model has states no run reaches. -/
def Obligations.InitialisedBoxIsAPermutation : Prop :=
  ∀ s : State, s.Inv → s.init = true → IsPermutation s.perm.box ∧ s.perm.a.toNat = s.pos.toNat % 256

/-! ## Whole-machine rules -/

/-- 60_exceptions.md R233, R234: the error each command reports, one per command, in the order illegal, range, no key; a command
always completes. -/
def Obligations.ErrorOfEachCommand : Prop :=
  (∀ (w : Word) (s : State), (∀ row ∈ opcodeTable, w &&& row.mask ≠ row.pattern) →
    executeCommand w s = .next { s with err := .illegal }) ∧
  (∀ (w : Word) (s : State) (i : Instr), decode w = .ok i → executeCommand w s = exec i s) ∧
  ∀ (i : Instr) (s : State), ∃ t, exec i s = .next t ∧
    (takesBuffer i → outOfRange s → t.err = .range) ∧
    (¬ (takesBuffer i ∧ outOfRange s) → needsKeySchedule i s → s.keyLen = 0 → t.err = .noKey) ∧
    (¬ (takesBuffer i ∧ outOfRange s) → ¬ (needsKeySchedule i s ∧ s.keyLen = 0) → t.err = .ok)

/-- 60_exceptions.md R232: a command that raises an error changes `STATUS.ERR` and nothing else, and the engine does not lock up:
the next command runs as it would have without the error. -/
def Obligations.FailedCommandChangesOnlyErr : Prop :=
  (∀ (w : Word) (s t : State), executeCommand w s = .next t → t.err ≠ .ok → t = { s with err := t.err }) ∧
  ∀ (w w' : Word) (s t : State), executeCommand w s = .next t → t.err ≠ .ok → executeCommand w' t = executeCommand w' s

/-- 60_exceptions.md R230: a command given a legal word, a buffer inside `DATA` and, where the key schedule must run, a non-empty
key always succeeds. -/
def Obligations.GoodInputsAlwaysSucceed : Prop :=
  ∀ (w : Word) (i : Instr) (s : State), decode w = .ok i → s.ptr.toNat + s.len.toNat ≤ s.cfg.dataSize →
    (needsKeySchedule i s → s.keyLen ≠ 0) → ∃ t, executeCommand w s = .next t ∧ t.err = .ok

/-- 10_state.md R22: only a host `WR` (and power-on reset) changes an operand register; no command writes one, whether it succeeds
or fails, nor `DATA_SIZE` (R39) nor the host's side; only `RC4.STREAM` reads `OFF`, and `RC4.SETIV` and `RC4.RESET` read no operand
register: the others do the same whatever those hold. None is hard-wired and none aliases another register: after a `WR` each
reads as written, and every other register as before. -/
def Obligations.OperandRegistersBelongToTheHost : Prop :=
  (∀ (s : State) (idx : BitVec 8) (v : Word) (rest : List HostOp), s.inbox = .wr idx v :: rest →
    idx ∈ [0x02#8, 0x03#8, 0x04#8, 0x05#8] →
    ∃ t, step s = .next t ∧ readReg idx t = v ∧ ∀ other, other ≠ idx → readReg other t = readReg other s) ∧
  (∀ (i : Instr) (s t : State), exec i s = .next t →
    t.ptr = s.ptr ∧ t.len = s.len ∧ t.offLo = s.offLo ∧ t.offHi = s.offHi ∧ t.cfg = s.cfg ∧ t.inbox = s.inbox ∧
    t.replies = s.replies) ∧
  (∀ s t : State, step s = .next t → (∀ idx v rest, s.inbox = .wr idx v :: rest → idx = 0x00#8) →
    (∀ rest, s.inbox ≠ .powerOn :: rest) → t.ptr = s.ptr ∧ t.len = s.len ∧ t.offLo = s.offLo ∧ t.offHi = s.offHi) ∧
  (∀ (i : Instr) (s : State) (lo hi : Word), i ≠ .rc4Stream →
    exec i { s with offLo := lo, offHi := hi } = mapNext (fun t => { t with offLo := lo, offHi := hi }) (exec i s)) ∧
  (∀ (i : Instr) (s : State) (p n : Word), (i = .rc4Reset ∨ ∃ v, i = .rc4SetIv v) →
    exec i { s with ptr := p, len := n } = mapNext (fun t => { t with ptr := p, len := n }) (exec i s)) ∧
  ∀ s : State, offset s = s.offHi ++ s.offLo

/-- 10_state.md R24: what each command does to `STATUS.INIT` when it succeeds; `ksa` sets it and power-on reset clears it. -/
def Obligations.InitFlagLifecycle : Prop :=
  (∀ s, (ksa s).init = true) ∧ (∀ cfg, (State.powerOn cfg).init = false) ∧
  ∀ (i : Instr) (s t : State), exec i s = .next t → t.err = .ok →
    (i = .rc4Crypt ∨ i = .rc4Reset → t.init = false) ∧ (i = .rc4Stream → t.init = true) ∧
    (i ≠ .rc4Crypt → i ≠ .rc4Reset → i ≠ .rc4Stream → t.init = s.init)

/-- The one writer of each register, over all commands: `DIGEST` is written only by `MD5.HASH` (10_state.md R27), `IV` only by
`RC4.SETIV` (R31), `KEY` and `KEYLEN` only by `RC4.SETKEY` (R32), `POS` only by `RC4.STREAM` and `RC4.RESET` (R35), `BOX` only by
`RC4.CRYPT` and `RC4.STREAM`, `A` and `B` by these and `RC4.RESET` (R33), HashState only by `MD5.HASH` (R134). -/
def Obligations.WritersOfEachRegister : Prop :=
  ∀ (i : Instr) (s t : State), exec i s = .next t →
    (i ≠ .md5Hash → t.digest = s.digest ∧ t.hash = s.hash) ∧
    ((∀ v, i ≠ .rc4SetIv v) → t.iv = s.iv) ∧
    (i ≠ .rc4SetKey → t.key = s.key ∧ t.keyLen = s.keyLen) ∧
    (i ≠ .rc4Stream → i ≠ .rc4Reset → t.pos = s.pos) ∧
    (i ≠ .rc4Crypt → i ≠ .rc4Stream → t.perm.box = s.perm.box) ∧
    (i ≠ .rc4Crypt → i ≠ .rc4Stream → i ≠ .rc4Reset → t.perm = s.perm)

/-- The engine touches `DATA` only inside the buffer of the running command (20_memory.md R60), and `MD5.HASH` and `RC4.SETKEY`
write nothing to it (R65): every byte outside what a command writes reads as before. -/
def Obligations.CommandsWriteOnlyTheirBuffer : Prop :=
  ∀ (i : Instr) (s t : State), Memory.wf s.data → exec i s = .next t →
    (∀ a, a < s.ptr.toNat ∨ s.ptr.toNat + s.len.toNat ≤ a → t.data.peek a = s.data.peek a) ∧
    (i ≠ .rc4Crypt → i ≠ .rc4Stream → t.data = s.data)

/-- 00_scope.md R3: the hash unit and the cipher units are independent. `MD5.HASH` does the same whatever the cipher state, and
leaves it; every other command does the same whatever the hash state, and leaves it. -/
def Obligations.HashAndCipherAreIndependent : Prop :=
  (∀ c s : State, exec .md5Hash (withCipherOf c s) = mapNext (withCipherOf c) (exec .md5Hash s)) ∧
  ∀ (i : Instr) (c s : State), i ≠ .md5Hash → exec i (withHashOf c s) = mapNext (withHashOf c) (exec i s)

/-- What the spec leaves unspecified influences nothing (10_state.md R29, R32, R33, R38): from two states that differ only in
HashState, in key bytes at and above `min(KEYLEN, 255)` and in `BOX` while `STATUS.INIT = 0`, every command answers states that
again differ only there. -/
def Obligations.UnspecifiedStateInfluencesNothing : Prop :=
  ∀ (i : Instr) (s t : State), SameSpecified s t →
    ∃ s' t', exec i s = .next s' ∧ exec i t = .next t' ∧ SameSpecified s' t'

/-- 20_memory.md R72: the key is copied by `RC4.SETKEY`. A step that is neither an `RC4.SETKEY` command nor a power-on reset, whatever it does to
`DATA`, changes neither `KEY` nor `KEYLEN`. -/
def Obligations.KeyIsCopied : Prop :=
  (∀ s : State, ¬ outOfRange s → ∃ t, exec .rc4SetKey s = .next t ∧ t.keyLen = s.len ∧ t.data = s.data ∧
    ∀ k : Fin 255, k.val < min s.len.toNat 255 → t.key.get k = s.data.peek (s.ptr.toNat + k.val)) ∧
  ∀ s t : State, step s = .next t →
    (∀ w rest, s.inbox = .wr 0x00#8 w :: rest → decode w ≠ .ok .rc4SetKey) → (∀ rest, s.inbox ≠ .powerOn :: rest) →
    t.key = s.key ∧ t.keyLen = s.keyLen

/-! ## MD5 -/

/-- 40_md5.md R122: the round functions as the source writes them, by the round a step belongs to, and the Boolean identities the
rule names for F1 and F2. -/
def Obligations.RoundFunctions : Prop :=
  (∀ (i : Nat) (b c d : Word),
    (i < 16 → md5F i b c d = d ^^^ (b &&& (c ^^^ d))) ∧
    (16 ≤ i → i < 32 → md5F i b c d = c ^^^ (d &&& (b ^^^ c))) ∧
    (32 ≤ i → i < 48 → md5F i b c d = b ^^^ c ^^^ d) ∧
    (48 ≤ i → i < 64 → md5F i b c d = c ^^^ (b ||| ~~~d))) ∧
  ∀ b c d : Word, d ^^^ (b &&& (c ^^^ d)) = (b &&& c) ||| (~~~b &&& d) ∧
    c ^^^ (d &&& (b ^^^ c)) = (b &&& d) ||| (c &&& ~~~d)

/-- 40_md5.md R124, R125: the rotation amounts, every one between 4 and 23, and the message word order, written out by round;
each round uses every word once. -/
def Obligations.StepTables : Prop :=
  (List.range 64).map md5S =
    [7, 12, 17, 22, 7, 12, 17, 22, 7, 12, 17, 22, 7, 12, 17, 22] ++ [5, 9, 14, 20, 5, 9, 14, 20, 5, 9, 14, 20, 5, 9, 14, 20] ++
    [4, 11, 16, 23, 4, 11, 16, 23, 4, 11, 16, 23, 4, 11, 16, 23] ++ [6, 10, 15, 21, 6, 10, 15, 21, 6, 10, 15, 21, 6, 10, 15, 21] ∧
  (∀ i, 4 ≤ md5S i ∧ md5S i ≤ 23) ∧
  (List.range 64).map md5G =
    [0, 1, 2, 3, 4, 5, 6, 7, 8, 9, 10, 11, 12, 13, 14, 15] ++ [1, 6, 11, 0, 5, 10, 15, 4, 9, 14, 3, 8, 13, 2, 7, 12] ++
    [5, 8, 11, 14, 1, 4, 7, 10, 13, 0, 3, 6, 9, 12, 15, 2] ++ [0, 7, 14, 5, 12, 3, 10, 1, 8, 15, 6, 13, 4, 11, 2, 9] ∧
  ∀ r : Fin 4, ∀ t : Fin 16, ∃ i : Fin 64, (i.val / 16 = r.val ∧ md5G i.val = t.val) ∧
    ∀ j : Fin 64, j.val / 16 = r.val ∧ md5G j.val = t.val → j = i

/-- 40_md5.md R126, R127: the compression function is 64 steps from `H`, each replacing the four registers at once, accumulated
into `H`; a block of 64 zero bytes from `INITV` gives the values of R127. -/
def Obligations.CompressionIsSixtyFourSteps : Prop :=
  (∀ (h : Quad) (blk : Vector Byte 64), ∃ r : Nat → Quad, r 0 = h ∧
    (∀ i, i < 64 →
      (r (i + 1)).a = (r i).d ∧ (r (i + 1)).c = (r i).b ∧ (r (i + 1)).d = (r i).c ∧
      ∃ t : Word, t = (r i).a + md5F i (r i).b (r i).c (r i).d + md5K.get (Fin.ofNat 64 i) +
          le32 (blk.get (Fin.ofNat 64 (4 * md5G i))) (blk.get (Fin.ofNat 64 (4 * md5G i + 1)))
            (blk.get (Fin.ofNat 64 (4 * md5G i + 2))) (blk.get (Fin.ofNat 64 (4 * md5G i + 3))) ∧
        (r (i + 1)).b = t.rotateLeft (md5S i) + (r i).b) ∧
    md5Compress h blk = ⟨h.a + (r 64).a, h.b + (r 64).b, h.c + (r 64).c, h.d + (r 64).d⟩) ∧
  md5Compress md5InitV (Vector.replicate 64 0x00#8) = ⟨0x031f1dac#32, 0x6ea58ed0#32, 0x1fab67b7#32, 0x74317791#32⟩

/-- 40_md5.md R129: after `n` absorptions since `md5_init`, `COUNT = n`, `BUFLEN = n mod 64`, exactly the `floor(n / 64)` full
blocks have been compressed in order, and `BUF` holds the last `n mod 64` bytes. -/
def Obligations.AbsorptionBuffersTheRemainder : Prop :=
  ∀ (hs : HashState) (msg : List Byte),
    (md5Absorb (md5Init hs) msg).count = BitVec.ofNat 64 msg.length ∧
    (md5Absorb (md5Init hs) msg).bufLen.val = msg.length % 64 ∧
    (md5Absorb (md5Init hs) msg).h = (blocksOf msg).foldl md5Compress md5InitV ∧
    (blocksOf msg).length = msg.length / 64 ∧
    ∀ k : Fin 64, k.val < msg.length % 64 →
      (md5Absorb (md5Init hs) msg).buf.get k = msg.getD (64 * (msg.length / 64) + k.val) 0x00#8

/-- 40_md5.md R130: `md5_final` pads the pending `r` bytes. Up to `r = 55` one block is compressed: the pending bytes, 0x80, zeros,
and the bit length in bytes 56 to 63, least significant byte first. From `r = 56` on two are: the pending bytes, 0x80 and zeros,
then 56 zeros and the bit length. The padding is not counted. -/
def Obligations.FinalPadsTheRemainder : Prop :=
  ∀ hs : HashState,
    (hs.bufLen.val ≤ 55 → ∃ only : Vector Byte 64, (md5Final hs).h = md5Compress hs.h only ∧
      ∀ k : Fin 64, only.get k =
        if k.val < hs.bufLen.val then hs.buf.get k
        else if k.val = hs.bufLen.val then 0x80#8
        else if k.val < 56 then 0x00#8
        else (hs.count * 8).extractLsb' (8 * (k.val - 56)) 8) ∧
    (56 ≤ hs.bufLen.val → ∃ first last : Vector Byte 64,
      (md5Final hs).h = md5Compress (md5Compress hs.h first) last ∧
      (∀ k : Fin 64, first.get k =
        if k.val < hs.bufLen.val then hs.buf.get k else if k.val = hs.bufLen.val then 0x80#8 else 0x00#8) ∧
      ∀ k : Fin 64, last.get k =
        if k.val < 56 then 0x00#8 else (hs.count * 8).extractLsb' (8 * (k.val - 56)) 8) ∧
    (md5Final hs).bufLen = 0 ∧ (md5Final hs).count = hs.count

/-- 40_md5.md R131: a message of `n >= 1` bytes causes exactly `floor((n + 8) / 64) + 1` compressions, which is
`floor(n / 64) + 1` when `n mod 64 <= 55` and `floor(n / 64) + 2` otherwise: `H` at the end is that many blocks of the padded
message compressed in order from `INITV`. -/
def Obligations.CompressionCount : Prop :=
  ∀ (hs : HashState) (msg : List Byte), 1 ≤ msg.length →
    (md5Run hs msg).h = (blocksOf (md5Pad msg)).foldl md5Compress md5InitV ∧
    (blocksOf (md5Pad msg)).length = (msg.length + 8) / 64 + 1 ∧
    (msg.length % 64 ≤ 55 → (blocksOf (md5Pad msg)).length = msg.length / 64 + 1) ∧
    (56 ≤ msg.length % 64 → (blocksOf (md5Pad msg)).length = msg.length / 64 + 2)

/-- 40_md5.md R134, R135: `MD5.HASH` on every input. On success with `LEN > 0` the digest is that of the padded buffer, block by
block, and HashState (scratch) is not constrained; the empty input gives sixteen zero bytes and touches no HashState; a buffer
out of range changes `STATUS.ERR` only. Nothing else changes. -/
def Obligations.HashDigestsTheBuffer : Prop :=
  decode 0x00000001#32 = .ok .md5Hash ∧
  ∀ s : State,
    (outOfRange s → exec .md5Hash s = .next { s with err := .range }) ∧
    (¬ outOfRange s → s.len = 0 → exec .md5Hash s = .next { s with digest := Vector.replicate 16 0x00#8, err := .ok }) ∧
    (¬ outOfRange s → s.len ≠ 0 → ∃ hs n,
      exec .md5Hash s = .next { s with digest := md5Digest (bufferBytes s), hash := hs, freeCount := n, err := .ok })

/-- 40_md5.md R136: the digest depends only on the bytes of the buffer, not on `PTR`, on any earlier command or on the cipher
state. -/
def Obligations.HashIsAFunctionOfTheBytes : Prop :=
  ∀ s t : State, ¬ outOfRange s → ¬ outOfRange t → bufferBytes s = bufferBytes t →
    ∃ s' t', exec .md5Hash s = .next s' ∧ exec .md5Hash t = .next t' ∧ s'.digest = t'.digest

/-- 40_md5.md R132: the digest bytes are the four state words serialised little-endian, and seen through the registers
`DIGESTk = H[k]`. -/
def Obligations.DigestRegistersShowTheAccumulator : Prop :=
  ∀ (h : Quad) (s : State), s.digest = md5Serialize h →
    (∀ k : Fin 4, ser32 h.a k.val = s.digest.get (Fin.ofNat 16 k.val) ∧ ser32 h.b k.val = s.digest.get (Fin.ofNat 16 (4 + k.val)) ∧
      ser32 h.c k.val = s.digest.get (Fin.ofNat 16 (8 + k.val)) ∧ ser32 h.d k.val = s.digest.get (Fin.ofNat 16 (12 + k.val))) ∧
    s.digest[0] = h.a.extractLsb' 0 8 ∧ s.digest[15] = h.d.extractLsb' 24 8 ∧
    readReg 0x0C#8 s = h.a ∧ readReg 0x0D#8 s = h.b ∧ readReg 0x0E#8 s = h.c ∧ readReg 0x0F#8 s = h.d

/-- 20_memory.md R66: repeating `MD5.HASH` or `RC4.SETKEY` with the same operands and the same `DATA` gives the same state. What is
unspecified is left out: for `MD5.HASH` HashState (10_state.md R29) and the model's count of free values, for `RC4.SETKEY` the key
bytes at and above `min(KEYLEN, 255)` (R32). -/
def Obligations.HashAndSetKeyAreIdempotent : Prop :=
  ∀ s t : State,
    (exec .md5Hash s = .next t → ∃ hs n, exec .md5Hash t = .next { t with hash := hs, freeCount := n }) ∧
    (exec .rc4SetKey s = .next t → ∃ key : Vector Byte 255, exec .rc4SetKey t = .next { t with key := key } ∧
      ∀ k : Fin 255, k.val < min t.keyLen.toNat 255 → key.get k = t.key.get k)

/-! ## The key, the IV and the key schedule -/

/-- 41_rc4_ksa.md R161: `RC4.SETKEY` on every input. Key bytes at and above `min(LEN, 255)` are unspecified (10_state.md R32), so
nothing is said of them. -/
def Obligations.SetKeyCopiesTheKey : Prop :=
  decode 0x00000010#32 = .ok .rc4SetKey ∧
  ∀ s : State,
    (outOfRange s → exec .rc4SetKey s = .next { s with err := .range }) ∧
    (¬ outOfRange s → ∃ key : Vector Byte 255, exec .rc4SetKey s = .next { s with key := key, keyLen := s.len, err := .ok } ∧
      ∀ k : Fin 255, k.val < min s.len.toNat 255 → key.get k = s.data.peek (s.ptr.toNat + k.val))

/-- 41_rc4_ksa.md R162: `RC4.SETIV imm8` sets `IV`, for every `imm8`, and cannot fail once decoded. -/
def Obligations.SetIvSetsTheIv : Prop :=
  (∀ (imm8 : Byte) (s : State), decode (0x00000011#32 ||| (imm8.zeroExtend 32 <<< 8)) = .ok (.rc4SetIv imm8) ∧
    exec (.rc4SetIv imm8) s = .next { s with iv := imm8, err := .ok }) ∧
  (∀ (w : Word) (s : State), w.extractLsb' 16 16 ≠ 0#16 → executeCommand w s = .next { s with err := .illegal }) ∧
  decode 0x00002A11#32 = .ok (.rc4SetIv 0x2A#8)

/-- 41_rc4_ksa.md R163: the fill in closed form, whatever `BOX` held, and `IV` back at its starting value. -/
def Obligations.FillInClosedForm : Prop :=
  ∀ (box : Vector Byte 256) (iv : Byte),
    (ksaFill box iv).2 = iv ∧
    ∀ i : Byte, boxAt (ksaFill box iv).1 i = (iv + i) ^^^ 0xFF#8 ∧ boxAt (ksaFill box iv).1 i = 0xFF#8 - (iv + i)

/-- 41_rc4_ksa.md R164: the mix is the recurrence the rule gives, from `j = 0`, for `i = 0..255`. -/
def Obligations.MixFollowsTheRecurrence : Prop :=
  ∀ (key : Vector Byte 255) (keyLen : Word) (box : Vector Byte 256), keyLen ≠ 0 →
    ∃ (b : Nat → Vector Byte 256) (j : Nat → Byte), b 0 = box ∧ j 0 = 0x00#8 ∧ b 256 = ksaMix key keyLen box ∧
      ∀ i : Byte, ∃ k : Fin 255, k.val = i.toNat % min keyLen.toNat 255 ∧
        j (i.toNat + 1) = j i.toNat + boxAt (b i.toNat) i + key.get k ∧
        ∀ x : Byte, boxAt (b (i.toNat + 1)) x =
          if x = j (i.toNat + 1) then boxAt (b i.toNat) i
          else if x = i then boxAt (b i.toNat) (j (i.toNat + 1)) else boxAt (b i.toNat) x

/-- 41_rc4_ksa.md R166: after `ksa()`, `BOX` is a function of the used key bytes, their number and `IV` alone; `IV` is unchanged.
`A` and `B` are 0 and the box is marked initialised (R165), and nothing else changes. -/
def Obligations.KeyScheduleIsDetermined : Prop :=
  (∀ s : State, ksa s = { s with perm := generatedBox s.key s.keyLen s.iv, init := true }) ∧
  ∀ s t : State, min s.keyLen.toNat 255 = min t.keyLen.toNat 255 → s.keyLen ≠ 0 → s.iv = t.iv →
    (∀ k : Fin 255, k.val < min s.keyLen.toNat 255 → s.key.get k = t.key.get k) → (ksa s).perm = (ksa t).perm

/-- 41_rc4_ksa.md R167: a key of 255 bytes or more is used through its first 255 bytes only: two such keys that agree there give
the same box and the same keystream, and mix step 255 uses `KEY[0]`. -/
def Obligations.LongKeysAreCutAt255 : Prop :=
  (∀ (key : Vector Byte 255) (n n' : Word) (iv : Byte), 255 ≤ n.toNat → 255 ≤ n'.toNat →
    generatedBox key n iv = generatedBox key n' iv ∧
    ∀ p, keystreamByte (generatedBox key n iv) p = keystreamByte (generatedBox key n' iv) p) ∧
  ∀ (key : Vector Byte 255) (n : Word), 255 ≤ n.toNat → keyByte key (keyBytesUsed n) 255 = key.get 0

/-- 41_rc4_ksa.md R169: `RC4.SETKEY` and `RC4.SETIV` leave `STATUS.INIT`, `BOX`, `A`, `B` and `POS` as they are. -/
def Obligations.KeyAndIvChangesKeepTheBox : Prop :=
  ∀ (i : Instr) (s t : State), (i = .rc4SetKey ∨ ∃ v, i = .rc4SetIv v) → exec i s = .next t →
    t.init = s.init ∧ t.perm = s.perm ∧ t.pos = s.pos

/-- The key schedule makes a permutation, and every keystream step keeps it one: each change to `BOX` after the fill is a swap
(10_state.md section 6, 42_rc4_prga.md section 1). -/
def Obligations.ScheduleAndAdvanceKeepPermutations : Prop :=
  (∀ (key : Vector Byte 255) (keyLen : Word) (iv : Byte), IsPermutation (generatedBox key keyLen iv).box) ∧
  ∀ (n : Nat) (c : PermBox), IsPermutation c.box → IsPermutation (prgaSkip n c).box

/-! ## The keystream and the one-shot command -/

/-- 42_rc4_prga.md R180, R181: from every cipher state one advance step adds 1 to `A`, then adds to `B` the entry at the new `A`
as it is before the swap, then exchanges the entries at the new `A` and `B` (which changes nothing where they are equal).
`prga_out` leaves that state and returns the entry at `BOX[A] + BOX[B]`, all read after the swap; keystream byte `p` is the output
that follows `p` advance steps. -/
def Obligations.AdvanceStepAndOutputByte : Prop :=
  ∀ c : PermBox, ∃ a b : Byte, a = c.a + 1#8 ∧ b = c.b + boxAt c.box a ∧
    (prgaAdvance c).a = a ∧ (prgaAdvance c).b = b ∧
    (∀ x : Byte, boxAt (prgaAdvance c).box x =
      if x = a then boxAt c.box b else if x = b then boxAt c.box a else boxAt c.box x) ∧
    (a = b → (prgaAdvance c).box = c.box) ∧
    (prgaOut c).2 = prgaAdvance c ∧
    (prgaOut c).1 = boxAt (prgaAdvance c).box (boxAt (prgaAdvance c).box a + boxAt (prgaAdvance c).box b) ∧
    ∀ p : Nat, keystreamByte c p = (prgaOut (prgaSkip p c)).1

/-- 42_rc4_prga.md R182: `prga_skip(n)` is `n` calls of `prga_out` whose results are thrown away; after it `A` has moved by `n`
modulo 256, so after `ksa()` `A = n mod 256`; `prga_skip(0)` does nothing. -/
def Obligations.SkipDiscardsOutputs : Prop :=
  ∀ (n : Nat) (c : PermBox),
    prgaSkip n c = Nat.iterate (fun x => (prgaOut x).2) n c ∧
    (prgaSkip n c).a = c.a + BitVec.ofNat 8 n ∧ prgaSkip 0 c = c ∧
    ∀ s : State, (prgaSkip n (ksa s).perm).a.toNat = n % 256

/-- 42_rc4_prga.md R186: `RC4.CRYPT` on every input. The buffer is XORed in place with the keystream of the box, which is
generated only if `STATUS.INIT = 0`; `STATUS.INIT` ends at 0; `IV`, `POS`, `KEY` and everything else is as before. The premise is
the canonical form of `DATA`. -/
def Obligations.CryptXorsTheBufferOnce : Prop :=
  decode 0x00000012#32 = .ok .rc4Crypt ∧
  ∀ s : State, Memory.wf s.data →
    (outOfRange s → exec .rc4Crypt s = .next { s with err := .range }) ∧
    (¬ outOfRange s → s.init = false → s.keyLen = 0 → exec .rc4Crypt s = .next { s with err := .noKey }) ∧
    ∀ c : PermBox, c = (if s.init then s.perm else generatedBox s.key s.keyLen s.iv) → ¬ outOfRange s →
      (s.init = false → s.keyLen ≠ 0) →
      ∃ m, exec .rc4Crypt s = .next { s with data := m, perm := prgaSkip s.len.toNat c, init := false, err := .ok } ∧
        Memory.wf m ∧ ∀ a, m.peek a = xoredByte s.data s.ptr.toNat s.len.toNat (keystreamByte c) a

/-- 42_rc4_prga.md R187: only `RC4.STREAM` ends with `INIT = 1` where it was 0; and `RC4.CRYPT` while a stream is active continues
that stream's keystream at its position, then invalidates; `POS` stays. The premise says that the box is that of a stream at
`POS`. -/
def Obligations.CryptContinuesAnActiveStream : Prop :=
  (∀ (i : Instr) (s t : State), exec i s = .next t → s.init = false → t.init = true → i = .rc4Stream) ∧
  ∀ (s : State) (key : Vector Byte 255) (keyLen : Word) (iv : Byte), Memory.wf s.data → ¬ outOfRange s → s.init = true →
    s.perm = prgaSkip s.pos.toNat (generatedBox key keyLen iv) →
    ∃ t, exec .rc4Crypt s = .next t ∧ t.init = false ∧ t.pos = s.pos ∧ t.err = .ok ∧
      ∀ a, t.data.peek a = xoredByte s.data s.ptr.toNat s.len.toNat
        (fun k => keystreamByte (generatedBox key keyLen iv) (s.pos.toNat + k)) a

/-- 42_rc4_prga.md R184: the same operation both encrypts and decrypts. For all keys, IVs and plaintexts, one-shot encryption
followed by one-shot decryption over the same buffer restores `DATA`; and so does applying `RC4.STREAM` twice at one offset where
the first call restarts (`INIT = 0` or `OFF != POS`; a first call that continues an active stream is left to
StreamByteUsesItsKeystreamByte). -/
def Obligations.CipherTwiceRestoresTheData : Prop :=
  ∀ s : State, Memory.wf s.data → ¬ outOfRange s → s.keyLen ≠ 0 →
    (s.init = false → ∃ t u, exec .rc4Crypt s = .next t ∧ exec .rc4Crypt t = .next u ∧ u.data = s.data ∧ u.key = s.key ∧
      u.keyLen = s.keyLen ∧ u.iv = s.iv ∧ u.init = false ∧ u.err = .ok) ∧
    (s.init = false ∨ offset s ≠ s.pos → ∃ t u, exec .rc4Stream s = .next t ∧ exec .rc4Stream t = .next u ∧ u.data = s.data ∧
      u.err = .ok)

/-! ## The stream -/

/-- 43_rc4_stream.md R201, R202: `RC4.STREAM` on every input. It restarts when `STATUS.INIT = 0` or `OFF != POS` (the box
regenerated, `OFF` steps discarded), else continues; the buffer is XORed in place; `POS` ends at `OFF + LEN` modulo 2^64 and
`STATUS.INIT` at 1; everything else is as before. The premise is the canonical form of `DATA`. -/
def Obligations.StreamXorsAtTheOffset : Prop :=
  decode 0x00000013#32 = .ok .rc4Stream ∧
  ∀ (s : State) (off : Dword) (restart : Prop), Memory.wf s.data → off = s.offHi ++ s.offLo →
    (restart ↔ s.init = false ∨ off ≠ s.pos) →
    (outOfRange s → exec .rc4Stream s = .next { s with err := .range }) ∧
    (¬ outOfRange s → restart → s.keyLen = 0 → exec .rc4Stream s = .next { s with err := .noKey }) ∧
    ∀ c : PermBox, (restart → c = prgaSkip off.toNat (generatedBox s.key s.keyLen s.iv)) → (¬ restart → c = s.perm) →
      ¬ outOfRange s → (restart → s.keyLen ≠ 0) →
      ∃ m, exec .rc4Stream s = .next
          { s with data := m, perm := prgaSkip s.len.toNat c, init := true, pos := off + s.len.zeroExtend 64, err := .ok } ∧
        Memory.wf m ∧ ∀ a, m.peek a = xoredByte s.data s.ptr.toNat s.len.toNat (keystreamByte c) a

/-- 43_rc4_stream.md R203, R207: after every successful `RC4.STREAM`, `POS = (OFF + LEN) mod 2^64`; and where the cipher state was
the key schedule's box advanced to `POS` for some key and IV (or is regenerated now), it is so again, with `A = POS mod 256`. -/
def Obligations.StreamKeepsThePosition : Prop :=
  ∀ s t : State, Memory.wf s.data → exec .rc4Stream s = .next t → t.err = .ok →
    t.pos.toNat = ((offset s).toNat + s.len.toNat) % 2 ^ 64 ∧
    ∀ (key : Vector Byte 255) (keyLen : Word) (iv : Byte),
      (s.init = false ∨ offset s ≠ s.pos → key = s.key ∧ keyLen = s.keyLen ∧ iv = s.iv) →
      (s.init = true → offset s = s.pos → s.perm = prgaSkip s.pos.toNat (generatedBox key keyLen iv)) →
      (t.perm.a.toNat = t.pos.toNat % 256) ∧
      ((offset s).toNat + s.len.toNat < 2 ^ 64 → t.perm = prgaSkip t.pos.toNat (generatedBox key keyLen iv))

/-- 43_rc4_stream.md R204: resumable-mode equivalence. Applying the cipher to `n` bytes at an offset and then to the next `m`
bytes at the following offset gives the very state that applying it once to all `n + m` bytes gives, operand registers apart. -/
def Obligations.SplitStreamEqualsOnePass : Prop :=
  ∀ (s : State) (p n m : Word) (off : Dword), Memory.wf s.data → p.toNat + n.toNat + m.toNat ≤ s.cfg.dataSize →
    p.toNat + n.toNat < 2 ^ 32 → n.toNat + m.toNat < 2 ^ 32 → (s.init = false ∨ off ≠ s.pos → s.keyLen ≠ 0) →
    ∃ t u, exec .rc4Stream (withOperands s p n off) = .next t ∧
      exec .rc4Stream (withOperands t (p + n) m (off + n.zeroExtend 64)) = .next u ∧
      exec .rc4Stream (withOperands s p (n + m) off) = .next (withOperands u p (n + m) off)

/-- 43_rc4_stream.md R204: for a fixed key and IV, byte number `p` of a logical stream is always XORed with keystream byte number
`p`, whether `RC4.STREAM` restarts or continues, and the next call finds the premise again, so whatever split into calls and in
whatever order of offsets; and `RC4.CRYPT` from `INIT = 0` gives the same bytes from position 0. -/
def Obligations.StreamByteUsesItsKeystreamByte : Prop :=
  ∀ s : State, Memory.wf s.data → ¬ outOfRange s → s.keyLen ≠ 0 →
    ((s.init = true → s.perm = prgaSkip s.pos.toNat (generatedBox s.key s.keyLen s.iv)) →
      ∃ t, exec .rc4Stream s = .next t ∧ t.err = .ok ∧ t.key = s.key ∧ t.keyLen = s.keyLen ∧ t.iv = s.iv ∧
        ((offset s).toNat + s.len.toNat < 2 ^ 64 → t.perm = prgaSkip t.pos.toNat (generatedBox s.key s.keyLen s.iv)) ∧
        ∀ a, t.data.peek a = xoredByte s.data s.ptr.toNat s.len.toNat
          (fun k => keystreamByte (generatedBox s.key s.keyLen s.iv) ((offset s).toNat + k)) a) ∧
    (s.init = false →
      ∃ t, exec .rc4Crypt s = .next t ∧ t.err = .ok ∧
        ∀ a, t.data.peek a = xoredByte s.data s.ptr.toNat s.len.toNat
          (keystreamByte (generatedBox s.key s.keyLen s.iv)) a)

/-- 43_rc4_stream.md R205: `RC4.RESET` clears the initialisation flag, the indices and the position, keeps everything else, cannot
fail and is idempotent. -/
def Obligations.ResetClearsTheStream : Prop :=
  decode 0x00000014#32 = .ok .rc4Reset ∧
  ∀ s : State, ∃ t, t = { s with init := false, perm := { box := s.perm.box, a := 0x00#8, b := 0x00#8 }, pos := 0, err := .ok } ∧
    exec .rc4Reset s = .next t ∧ exec .rc4Reset t = .next t
end

