-- ==== Sys2Proof/Laws/Loops.lean ====
section
/-! SUPPORT. Laws of the ascending loop. -/

namespace Sys2Proof.Machine

variable {σ : Type}

@[simp] theorem forUp_zero (f : Nat → σ → σ) (i : Nat) (s : σ) : forUp f 0 i s = s := rfl

theorem forUp_succ (f : Nat → σ → σ) (n i : Nat) (s : σ) : forUp f (n + 1) i s = forUp f n (i + 1) (f i s) := rfl

/-- A loop of `m + n` rounds is its first `m` rounds, then the other `n`. -/
theorem forUp_add (f : Nat → σ → σ) (m n i : Nat) (s : σ) :
    forUp f (m + n) i s = forUp f n (i + m) (forUp f m i s) := by
  induction m generalizing i s with
  | zero => simp
  | succ m ih =>
    rw [Nat.add_right_comm, forUp_succ, ih, forUp_succ]
    congr 1
    omega

/-- The last round of a loop. -/
theorem forUp_last (f : Nat → σ → σ) (n i : Nat) (s : σ) : forUp f (n + 1) i s = f (i + n) (forUp f n i s) := by
  rw [forUp_add]
  rfl

/-- The invariant rule: what holds before the loop and is kept by every round holds after it. -/
theorem forUp_invariant {f : Nat → σ → σ} (P : Nat → σ → Prop) {n i : Nat} {s : σ} (start : P i s)
    (keep : ∀ k x, i ≤ k → k < i + n → P k x → P (k + 1) (f k x)) : P (i + n) (forUp f n i s) := by
  induction n with
  | zero => exact start
  | succ n ih =>
    rw [forUp_last]
    exact keep (i + n) _ (by omega) (by omega) (ih fun k x hk hn => keep k x hk (by omega))

end Sys2Proof.Machine
end

