-- ==== Sys2Proof/Laws/Memory.lean ====
section
/-! SUPPORT. The laws of `DATA`: read after write, and that every write keeps the canonical form. -/

namespace Sys2Proof.Machine

theorem Memory.peek_cell_append (a : Nat) (v : Byte) (m : Memory) (k : Nat)
    (hm : ∀ c ∈ m, a < c.1) :
    Memory.peek (Memory.cell a v ++ m) k = if k = a then v else Memory.peek m k := by
  have absent : Memory.peek m a = Memory.unlisted := by
    clear k
    induction m with
    | nil => rfl
    | cons c m ih =>
      have hc := hm c (by simp)
      simp only [Memory.peek]
      rw [if_neg (by omega)]
      exact ih fun d hd => hm d (by simp [hd])
  unfold Memory.cell
  by_cases hv : v = Memory.unlisted
  · by_cases hk : k = a
    · subst hk; simp [hv, absent]
    · simp [hv, hk]
  · by_cases hk : k = a
    · subst hk; simp [hv, Memory.peek]
    · have : a ≠ k := fun h => hk h.symm
      simp [hv, hk, Memory.peek, this]

/-- Reading after a write: the byte written at its own address, the old byte everywhere else. -/
theorem Memory.peek_poke (m : Memory) (hm : m.Pairwise (fun x y => x.1 < y.1)) (a : Nat) (v : Byte) (k : Nat) :
    (m.poke a v).peek k = if k = a then v else m.peek k := by
  induction m with
  | nil => simpa [Memory.poke] using Memory.peek_cell_append a v [] k (by simp)
  | cons c m ih =>
    obtain ⟨x, y⟩ := c
    obtain ⟨hx, hm'⟩ := List.pairwise_cons.mp hm
    simp only [Memory.poke]
    by_cases hlt : x < a
    · rw [if_pos hlt]
      simp only [Memory.peek]
      rw [ih hm']
      by_cases hxk : x = k
      · rw [if_pos hxk, if_neg (by omega), if_pos hxk]
      · rw [if_neg hxk, if_neg hxk]
    · rw [if_neg hlt]
      by_cases heq : x = a
      · rw [if_pos heq]
        rw [Memory.peek_cell_append a v m k (by intro d hd; have := hx d hd; simp only at this; omega)]
        simp only [Memory.peek]
        by_cases hk : k = a
        · rw [if_pos hk, if_pos hk]
        · rw [if_neg hk, if_neg hk, if_neg (by omega)]
      · rw [if_neg heq]
        refine Memory.peek_cell_append a v _ k ?_
        intro d hd
        rcases List.mem_cons.mp hd with h | h
        · subst h; simp only; omega
        · have := hx d h; simp only at this; omega

theorem Memory.mem_cell {a : Nat} {v : Byte} {c : Host.Cell} (h : c ∈ Memory.cell a v) :
    c = (a, v) ∧ v ≠ Memory.unlisted := by
  unfold Memory.cell at h
  split at h
  · simp at h
  · exact ⟨by simpa using h, ‹_›⟩

/-- What a write may list: the byte written, or a byte that was listed. -/
theorem Memory.mem_poke {m : Memory} {a : Nat} {v : Byte} {c : Host.Cell} (h : c ∈ m.poke a v) :
    (c = (a, v) ∧ v ≠ Memory.unlisted) ∨ c ∈ m := by
  induction m with
  | nil => exact .inl (Memory.mem_cell h)
  | cons d m ih =>
    simp only [Memory.poke] at h
    split at h
    · rcases List.mem_cons.mp h with h | h
      · exact .inr (by simp [h])
      · exact (ih h).imp id fun hm => List.mem_cons_of_mem _ hm
    · split at h <;> rcases List.mem_append.mp h with h | h
      · exact .inl (Memory.mem_cell h)
      · exact .inr (List.mem_cons_of_mem _ h)
      · exact .inl (Memory.mem_cell h)
      · exact .inr h

theorem Memory.cell_append_sorted {a : Nat} (v : Byte) {m : Memory} (hm : m.Pairwise (fun x y => x.1 < y.1))
    (above : ∀ c ∈ m, a < c.1) : (Memory.cell a v ++ m).Pairwise (fun x y => x.1 < y.1) := by
  unfold Memory.cell
  split
  · simpa using hm
  · exact List.pairwise_cons.mpr ⟨above, hm⟩

/-- Every write keeps the addresses strictly rising. -/
theorem Memory.poke_sorted {m : Memory} (hm : m.Pairwise (fun x y => x.1 < y.1)) (a : Nat) (v : Byte) :
    (m.poke a v).Pairwise (fun x y => x.1 < y.1) := by
  induction m with
  | nil => simpa [Memory.poke] using Memory.cell_append_sorted (a := a) v (m := []) (by simp) (by simp)
  | cons c m ih =>
    obtain ⟨x, y⟩ := c
    obtain ⟨hx, hm'⟩ := List.pairwise_cons.mp hm
    simp only [Memory.poke]
    split
    · refine List.pairwise_cons.mpr ⟨fun d hd => ?_, ih hm'⟩
      rcases Memory.mem_poke hd with ⟨rfl, -⟩ | h
      · assumption
      · exact hx d h
    · split
      · refine Memory.cell_append_sorted v hm' fun d hd => ?_
        have := hx d hd
        simp only at this
        omega
      · refine Memory.cell_append_sorted v hm fun d hd => ?_
        rcases List.mem_cons.mp hd with h | h
        · subst h; simp only; omega
        · have := hx d h; simp only at this; omega

/-- Every write keeps the canonical form. -/
theorem Memory.poke_wf {m : Memory} (hm : m.wf) (a : Nat) (v : Byte) : Memory.wf (m.poke a v) := by
  refine ⟨Memory.poke_sorted hm.1 a v, fun c hc => ?_⟩
  rcases Memory.mem_poke hc with ⟨rfl, hv⟩ | h
  · exact hv
  · exact hm.2 c h

/-- A write at an address that exists lists only addresses that exist. -/
theorem Memory.poke_bounded {m : Memory} {size : Nat} (hm : ∀ c ∈ m, c.1 < size) {a : Nat} (ha : a < size) (v : Byte) :
    ∀ c ∈ m.poke a v, c.1 < size := by
  intro c hc
  rcases Memory.mem_poke hc with ⟨rfl, -⟩ | h
  · exact ha
  · exact hm c h

/-- Below every listed address nothing is listed. -/
theorem Memory.peek_below {m : Memory} {a : Nat} (h : ∀ c ∈ m, a < c.1) : m.peek a = Memory.unlisted := by
  induction m with
  | nil => rfl
  | cons c m ih =>
    have hc := h c (by simp)
    simp only [Memory.peek]
    rw [if_neg (by omega)]
    exact ih fun d hd => h d (by simp [hd])

/-- Canonical memories that read alike everywhere are equal data. -/
theorem Memory.ext_peek {m m' : Memory} (h : Memory.wf m) (h' : Memory.wf m') (same : ∀ a, m.peek a = m'.peek a) : m = m' := by
  induction m generalizing m' with
  | nil =>
    cases m' with
    | nil => rfl
    | cons c m' =>
      obtain ⟨k, x⟩ := c
      have read := same k
      simp [Memory.peek] at read
      exact absurd read.symm (h'.2 (k, x) (by simp))
  | cons c m ih =>
    obtain ⟨k, x⟩ := c
    have hx := h.2 (k, x) (by simp)
    obtain ⟨above, hm⟩ := List.pairwise_cons.mp h.1
    cases m' with
    | nil =>
      have read := same k
      simp [Memory.peek] at read
      exact absurd read hx
    | cons d m' =>
      obtain ⟨k', x'⟩ := d
      have hx' := h'.2 (k', x') (by simp)
      obtain ⟨above', hm'⟩ := List.pairwise_cons.mp h'.1
      have keys : k = k' := by
        rcases Nat.lt_trichotomy k k' with hl | he | hl
        · have read := same k
          simp only [Memory.peek, if_pos] at read
          rw [if_neg (by omega), Memory.peek_below fun c hc => by have := above' c hc; simp only at this; omega] at read
          exact absurd read hx
        · exact he
        · have read := same k'
          simp only [Memory.peek, if_pos] at read
          rw [if_neg (by omega), Memory.peek_below fun c hc => by have := above c hc; simp only at this; omega] at read
          exact absurd read.symm hx'
      subst keys
      have bytes : x = x' := by simpa [Memory.peek] using same k
      subst bytes
      congr 1
      refine ih ⟨hm, fun c hc => h.2 c (by simp [hc])⟩ ⟨hm', fun c hc => h'.2 c (by simp [hc])⟩ fun a => ?_
      by_cases ha : k = a
      · subst ha
        rw [Memory.peek_below above, Memory.peek_below above']
      · simpa [Memory.peek, ha] using same a

theorem Memory.wf_nil : Memory.wf [] := ⟨List.Pairwise.nil, by simp⟩

/-- `DATA` at reset lists nothing, in the canonical form. -/
theorem State.powerOn_data_wf (cfg : Config) : Memory.wf (State.powerOn cfg).data := Memory.wf_nil

/-- A read: the byte at an address that exists, a fault elsewhere. -/
theorem memRead_inside (cfg : Config) (m : Memory) {a : Nat} (h : a < cfg.dataSize) : memRead cfg m a = .ok (m.peek a) :=
  if_pos h

theorem memRead_outside (cfg : Config) (m : Memory) {a : Nat} (h : ¬ a < cfg.dataSize) :
    memRead cfg m a = .error (.noSuchAddress a) := if_neg h

/-- A write: the new `DATA` at an address that exists, a fault elsewhere. -/
theorem memWrite_inside (cfg : Config) (m : Memory) {a : Nat} (h : a < cfg.dataSize) (v : Byte) :
    memWrite cfg m a v = .ok (m.poke a v) := if_pos h

theorem memWrite_outside (cfg : Config) (m : Memory) {a : Nat} (h : ¬ a < cfg.dataSize) (v : Byte) :
    memWrite cfg m a v = .error (.noSuchAddress a) := if_neg h

/-- A buffer inside `DATA` reads as its bytes, in ascending order. -/
theorem memReadBytes_inside (cfg : Config) (m : Memory) (a n : Nat) (h : a + n ≤ cfg.dataSize) :
    memReadBytes cfg m a n = .ok ((List.range n).map fun k => m.peek (a + k)) := by
  induction n generalizing a with
  | zero => rfl
  | succ n ih =>
    simp only [memReadBytes]
    rw [memRead_inside cfg m (by omega), ih (a + 1) (by omega)]
    simp [bind, Except.bind, List.range_succ_eq_map, Function.comp_def, Nat.add_assoc, Nat.add_comm 1]

end Sys2Proof.Machine
end

