-- ==== Sys2Proof/Laws/Cipher.lean ====
section
/-! SUPPORT. What the shared cipher operations do: the box accessors, `prga_skip`, `xor_buffer`. -/

namespace Sys2Proof.Machine

/-- Two boxes with the same entries are equal. -/
theorem box_ext {t u : Vector Byte 256} (same : ∀ i : Byte, boxAt t i = boxAt u i) : t = u := by
  apply Vector.ext
  intro i hi
  have := same (BitVec.ofNat 8 i)
  unfold boxAt at this
  simpa [Nat.mod_eq_of_lt hi] using this

/-- What `RC4.SETKEY`'s copy leaves in `KEY`. -/
theorem storeKey_get (bytes : List Byte) (n : Nat) (key : Vector Byte 255) (k : Fin 255) :
    (storeKey n bytes key).get k =
      if n ≤ k.val ∧ k.val < n + bytes.length then bytes.getD (k.val - n) 0x00#8 else key.get k := by
  induction bytes generalizing n key with
  | nil => simp [storeKey]
  | cons v vs ih =>
    have entry : ∀ w : Vector Byte 255, w.get k = w[k.val] := fun _ => rfl
    rw [storeKey, ih, List.length_cons]
    by_cases later : n + 1 ≤ k.val ∧ k.val < n + 1 + vs.length
    · rw [if_pos later, if_pos (by omega), show k.val - n = (k.val - (n + 1)) + 1 by omega]
      simp
    · rw [if_neg later, entry, Vector.getElem_setIfInBounds]
      by_cases here : n = k.val
      · rw [if_pos here, if_pos (by omega)]
        simp [here]
      · rw [if_neg here, if_neg (by omega)]
        rfl

/-- Reading `BOX` after one write. -/
theorem boxAt_boxPut (t : Vector Byte 256) (b v i : Byte) : boxAt (boxPut t b v) i = if i = b then v else boxAt t i := by
  unfold boxAt boxPut
  rw [Vector.getElem_set]
  by_cases h : i = b
  · subst h; simp
  · have : b.toNat ≠ i.toNat := fun hn => h (BitVec.eq_of_toNat_eq hn.symm)
    simp [h, this]

/-- Reading `BOX` after a swap. -/
theorem boxAt_boxSwap (t : Vector Byte 256) (i j k : Byte) :
    boxAt (boxSwap t i j) k = if k = j then boxAt t i else if k = i then boxAt t j else boxAt t k := by
  unfold boxSwap
  rw [boxAt_boxPut, boxAt_boxPut]

@[simp] theorem prgaSkip_zero (c : PermBox) : prgaSkip 0 c = c := rfl

theorem prgaSkip_succ (n : Nat) (c : PermBox) : prgaSkip (n + 1) c = prgaSkip n (prgaAdvance c) := by
  have shift : ∀ (i j : Nat) (x : PermBox), forUp (fun _ x => prgaAdvance x) n i x = forUp (fun _ x => prgaAdvance x) n j x := by
    induction n with
    | zero => intros; rfl
    | succ n ih => intro i j x; rw [forUp_succ, forUp_succ]; exact ih _ _ _
  unfold prgaSkip
  rw [forUp_succ]
  exact shift _ _ _

/-- Fast-forwarding by a sum. -/
theorem prgaSkip_add (m n : Nat) (c : PermBox) : prgaSkip (m + n) c = prgaSkip n (prgaSkip m c) := by
  induction m generalizing c with
  | zero => simp
  | succ m ih => rw [Nat.add_right_comm, prgaSkip_succ, prgaSkip_succ, ih]

/-- The keystream from a fast-forwarded state on. -/
theorem keystreamByte_prgaSkip (m k : Nat) (c : PermBox) : keystreamByte (prgaSkip m c) k = keystreamByte c (m + k) := by
  unfold keystreamByte
  rw [prgaSkip_add]

@[simp] theorem prgaOut_state (c : PermBox) : (prgaOut c).2 = prgaAdvance c := rfl

/-- `xor_buffer` over a buffer inside `DATA`: it completes and the cipher state has moved one step per byte. Where `DATA` lists
only addresses that exist it still does; where it is canonical it stays so, and exactly the buffer is XORed, byte `k` with
keystream byte `k`. -/
theorem xorBuffer_inside (cfg : Config) (n a : Nat) (m : Memory) (c : PermBox) (h : a + n ≤ cfg.dataSize) :
    ∃ m', xorBuffer cfg n a m c = .ok (m', prgaSkip n c) ∧
      ((∀ x ∈ m, x.1 < cfg.dataSize) → ∀ x ∈ m', x.1 < cfg.dataSize) ∧
      (Memory.wf m → Memory.wf m' ∧ ∀ k, m'.peek k = xoredByte m a n (keystreamByte c) k) := by
  induction n generalizing a m c with
  | zero =>
    refine ⟨m, rfl, id, fun hm => ⟨hm, fun k => ?_⟩⟩
    unfold xoredByte
    rw [if_neg (by omega)]
  | succ n ih =>
    have inside : a < cfg.dataSize := by omega
    obtain ⟨m', hrun, hbound, hcanon⟩ := ih (a + 1) (m.poke a (m.peek a ^^^ (prgaOut c).1)) (prgaAdvance c) (by omega)
    refine ⟨m', ?_, fun hb => hbound (Memory.poke_bounded hb inside _), fun hm => ?_⟩
    · rw [prgaSkip_succ, ← hrun]
      simp [xorBuffer, memRead_inside cfg m inside, memWrite_inside cfg m inside, bind, Except.bind]
    · obtain ⟨hwf, hpeek⟩ := hcanon (Memory.poke_wf hm a _)
      refine ⟨hwf, fun k => ?_⟩
      rw [hpeek k]
      unfold xoredByte
      rw [Memory.peek_poke _ hm.1]
      by_cases hka : k = a
      · subst hka
        rw [if_neg (by omega), if_pos rfl, if_pos (by omega)]
        simp [keystreamByte]
      · rw [if_neg hka]
        by_cases hin : a + 1 ≤ k ∧ k < a + 1 + n
        · rw [if_pos hin, if_pos (by omega), show k - a = (k - (a + 1)) + 1 by omega]
          unfold keystreamByte
          rw [prgaSkip_succ]
        · rw [if_neg hin, if_neg (by omega)]

/-- A buffer cut in two is XORed as the first part, then the second. -/
theorem xorBuffer_add (cfg : Config) (n k a : Nat) (m : Memory) (c : PermBox) :
    xorBuffer cfg (n + k) a m c = (do
      let first ← xorBuffer cfg n a m c
      xorBuffer cfg k (a + n) first.1 first.2) := by
  induction n generalizing a m c with
  | zero => simp [xorBuffer, bind, Except.bind]
  | succ n ih =>
    rw [show n + 1 + k = (n + k) + 1 by omega]
    simp only [xorBuffer, bind, Except.bind]
    cases memRead cfg m a with
    | error f => rfl
    | ok v =>
      simp only
      cases memWrite cfg m a (v ^^^ (prgaOut c).1) with
      | error f => rfl
      | ok m' =>
        simp only
        rw [ih, show a + 1 + n = a + (n + 1) by omega]
        rfl

/-- `xor_buffer` on a command's buffer inside `DATA` (see `xorBuffer_inside`). -/
theorem xorOperandBuffer_inside (s : State) (h : bufStart s + bufLength s ≤ s.cfg.dataSize) :
    ∃ m, xorOperandBuffer s = .ok { s with data := m, perm := prgaSkip (bufLength s) s.perm } ∧
      ((∀ x ∈ s.data, x.1 < s.cfg.dataSize) → ∀ x ∈ m, x.1 < s.cfg.dataSize) ∧
      (Memory.wf s.data →
        Memory.wf m ∧ ∀ k, m.peek k = xoredByte s.data (bufStart s) (bufLength s) (keystreamByte s.perm) k) := by
  obtain ⟨m, hrun, hrest⟩ := xorBuffer_inside s.cfg (bufLength s) (bufStart s) s.data s.perm h
  refine ⟨m, ?_, hrest⟩
  simp [xorOperandBuffer, hrun, bind, Except.bind]

end Sys2Proof.Machine
end

