-- ==== Sys2Proof/Laws/Md5.lean ====
section
/-! SUPPORT. What the parts of `md5_final` leave in `BUF`, and the blocks of a padded message. -/

namespace Sys2Proof.Machine

theorem zeroLoop_get (n lo : Nat) (buf : Vector Byte 64) (k : Fin 64) :
    (forUp (fun i b => b.setIfInBounds i 0x00#8) n lo buf : Vector Byte 64).get k =
      if lo ≤ k.val ∧ k.val < lo + n then 0x00#8 else buf.get k := by
  have entry : ∀ w : Vector Byte 64, w.get k = w[k.val] := fun _ => rfl
  induction n with
  | zero => rw [if_neg (by omega)]; rfl
  | succ n ih =>
    rw [forUp_last, entry, Vector.getElem_setIfInBounds, ← entry, ih]
    by_cases last : lo + n = k.val
    · rw [if_pos last, if_pos (by omega)]
    · rw [if_neg last]
      split
      · rw [if_pos (by omega)]
      · rw [if_neg (by omega)]

/-- `BUF` after a zero fill (40_md5.md R130). -/
theorem zeroFill_get (lo hi : Nat) (buf : Vector Byte 64) (k : Fin 64) :
    (zeroFill lo hi buf).get k = if lo ≤ k.val ∧ k.val < hi then 0x00#8 else buf.get k := by
  unfold zeroFill
  rw [zeroLoop_get]
  split
  · rw [if_pos (by omega)]
  · rw [if_neg (by omega)]

/-- `BUF` after the length field is written (R130). -/
theorem putLength_get (len : Dword) (buf : Vector Byte 64) (k : Fin 64) :
    (putLength len buf).get k = if 56 ≤ k.val then ser64 len (k.val - 56) else buf.get k := by
  have entry : ∀ w : Vector Byte 64, w.get k = w[k.val] := fun _ => rfl
  have loop : ∀ n, n ≤ 8 → (forUp (fun i b => b.setIfInBounds (56 + i) (ser64 len i)) n 0 buf : Vector Byte 64).get k =
      if 56 ≤ k.val ∧ k.val < 56 + n then ser64 len (k.val - 56) else buf.get k := by
    intro n hn
    induction n with
    | zero => rw [if_neg (by omega)]; rfl
    | succ n ih =>
      rw [forUp_last, entry, Vector.getElem_setIfInBounds, ← entry, ih (by omega)]
      by_cases last : 56 + n = k.val
      · rw [if_pos (by omega), if_pos (by omega)]
        congr 1
        omega
      · rw [if_neg (by omega)]
        split
        · rw [if_pos (by omega)]
        · rw [if_neg (by omega)]
  have := k.isLt
  unfold putLength
  rw [loop 8 (le_refl _)]
  split
  · rw [if_pos (by omega)]
  · rw [if_neg (by omega)]

theorem blockOf_get (bytes : List Byte) (q : Nat) (k : Fin 64) : (blockOf bytes q).get k = bytes.getD (64 * q + k.val) 0x00#8 := by
  show (blockOf bytes q)[k.val] = _
  simp [blockOf]

/-- The blocks of a longer byte sequence are the blocks it had, then the new ones. -/
theorem blocksOf_append (a b : List Byte) (j : Nat) (h : (a ++ b).length / 64 = a.length / 64 + j) :
    blocksOf (a ++ b) = blocksOf a ++ (List.range j).map (fun t => blockOf (a ++ b) (a.length / 64 + t)) := by
  unfold blocksOf
  rw [h, List.range_add, List.map_append, List.map_map]
  refine congrArg (· ++ _) ?_
  apply List.map_congr_left
  intro q hq
  have inside : q < a.length / 64 := by simpa using hq
  apply Vector.ext
  intro k hk
  show (blockOf (a ++ b) q).get ⟨k, hk⟩ = (blockOf a q).get ⟨k, hk⟩
  rw [blockOf_get, blockOf_get]
  simp only [List.getD_eq_getElem?_getD]
  rw [List.getElem?_append_left]
  show 64 * q + k < _
  omega

theorem md5Pad_length (msg : List Byte) : (md5Pad msg).length = msg.length + 9 + (119 - msg.length % 64) % 64 := by
  simp [md5Pad, md5Padding]
  omega

end Sys2Proof.Machine
end

