-- ==== Sys2Proof/Laws/PerInstr.lean ====
section
/-! SUPPORT. What holds of every command as a term, one lemma per constructor. -/

namespace Sys2Proof.Laws.EncodesIntoItsRow

/-- The encoder's word selects the command's own row of the opcode map (30_encoding.md R95). -/
def Statement (i : Instr) : Prop := encode i &&& (opcodeRow i).mask = (opcodeRow i).pattern

theorem md5Hash : Statement .md5Hash := rfl

theorem rc4SetKey : Statement .rc4SetKey := rfl

theorem rc4SetIv (imm8 : Byte) : Statement (.rc4SetIv imm8) := by
  unfold Statement
  simp only [encode, opcodeRow]
  ext k hk
  simp only [BitVec.getElem_and, BitVec.getElem_or, BitVec.getElem_shiftLeft]
  interval_cases k <;> simp

theorem rc4Crypt : Statement .rc4Crypt := rfl

theorem rc4Stream : Statement .rc4Stream := rfl

theorem rc4Reset : Statement .rc4Reset := rfl

end Sys2Proof.Laws.EncodesIntoItsRow
end

