-- ==== Sys2Proof/Laws/State.lean ====
section
/-! SUPPORT. What each named update of the state leaves in each field. -/

namespace Sys2Proof.Machine


/-! ## `raise` -/

@[simp] theorem raise_cfg (e : ErrCode) (s : State) : (raise e s).cfg = s.cfg := rfl
@[simp] theorem raise_ptr (e : ErrCode) (s : State) : (raise e s).ptr = s.ptr := rfl
@[simp] theorem raise_len (e : ErrCode) (s : State) : (raise e s).len = s.len := rfl
@[simp] theorem raise_offLo (e : ErrCode) (s : State) : (raise e s).offLo = s.offLo := rfl
@[simp] theorem raise_offHi (e : ErrCode) (s : State) : (raise e s).offHi = s.offHi := rfl
@[simp] theorem raise_init (e : ErrCode) (s : State) : (raise e s).init = s.init := rfl
@[simp] theorem raise_err (e : ErrCode) (s : State) : (raise e s).err = e := rfl
@[simp] theorem raise_digest (e : ErrCode) (s : State) : (raise e s).digest = s.digest := rfl
@[simp] theorem raise_hash (e : ErrCode) (s : State) : (raise e s).hash = s.hash := rfl
@[simp] theorem raise_iv (e : ErrCode) (s : State) : (raise e s).iv = s.iv := rfl
@[simp] theorem raise_keyLen (e : ErrCode) (s : State) : (raise e s).keyLen = s.keyLen := rfl
@[simp] theorem raise_key (e : ErrCode) (s : State) : (raise e s).key = s.key := rfl
@[simp] theorem raise_perm (e : ErrCode) (s : State) : (raise e s).perm = s.perm := rfl
@[simp] theorem raise_pos (e : ErrCode) (s : State) : (raise e s).pos = s.pos := rfl
@[simp] theorem raise_data (e : ErrCode) (s : State) : (raise e s).data = s.data := rfl
@[simp] theorem raise_inbox (e : ErrCode) (s : State) : (raise e s).inbox = s.inbox := rfl
@[simp] theorem raise_replies (e : ErrCode) (s : State) : (raise e s).replies = s.replies := rfl
@[simp] theorem raise_freeCount (e : ErrCode) (s : State) : (raise e s).freeCount = s.freeCount := rfl

/-! ## `succeed` -/

@[simp] theorem succeed_cfg (s : State) : (succeed s).cfg = s.cfg := rfl
@[simp] theorem succeed_ptr (s : State) : (succeed s).ptr = s.ptr := rfl
@[simp] theorem succeed_len (s : State) : (succeed s).len = s.len := rfl
@[simp] theorem succeed_offLo (s : State) : (succeed s).offLo = s.offLo := rfl
@[simp] theorem succeed_offHi (s : State) : (succeed s).offHi = s.offHi := rfl
@[simp] theorem succeed_init (s : State) : (succeed s).init = s.init := rfl
@[simp] theorem succeed_err (s : State) : (succeed s).err = .ok := rfl
@[simp] theorem succeed_digest (s : State) : (succeed s).digest = s.digest := rfl
@[simp] theorem succeed_hash (s : State) : (succeed s).hash = s.hash := rfl
@[simp] theorem succeed_iv (s : State) : (succeed s).iv = s.iv := rfl
@[simp] theorem succeed_keyLen (s : State) : (succeed s).keyLen = s.keyLen := rfl
@[simp] theorem succeed_key (s : State) : (succeed s).key = s.key := rfl
@[simp] theorem succeed_perm (s : State) : (succeed s).perm = s.perm := rfl
@[simp] theorem succeed_pos (s : State) : (succeed s).pos = s.pos := rfl
@[simp] theorem succeed_data (s : State) : (succeed s).data = s.data := rfl
@[simp] theorem succeed_inbox (s : State) : (succeed s).inbox = s.inbox := rfl
@[simp] theorem succeed_replies (s : State) : (succeed s).replies = s.replies := rfl
@[simp] theorem succeed_freeCount (s : State) : (succeed s).freeCount = s.freeCount := rfl

/-! ## `dropHashState` -/

@[simp] theorem dropHashState_cfg (s : State) : (dropHashState s).cfg = s.cfg := rfl
@[simp] theorem dropHashState_ptr (s : State) : (dropHashState s).ptr = s.ptr := rfl
@[simp] theorem dropHashState_len (s : State) : (dropHashState s).len = s.len := rfl
@[simp] theorem dropHashState_offLo (s : State) : (dropHashState s).offLo = s.offLo := rfl
@[simp] theorem dropHashState_offHi (s : State) : (dropHashState s).offHi = s.offHi := rfl
@[simp] theorem dropHashState_init (s : State) : (dropHashState s).init = s.init := rfl
@[simp] theorem dropHashState_err (s : State) : (dropHashState s).err = s.err := rfl
@[simp] theorem dropHashState_digest (s : State) : (dropHashState s).digest = s.digest := rfl
@[simp] theorem dropHashState_hash (s : State) : (dropHashState s).hash = freeHashState s.freeCount := rfl
@[simp] theorem dropHashState_iv (s : State) : (dropHashState s).iv = s.iv := rfl
@[simp] theorem dropHashState_keyLen (s : State) : (dropHashState s).keyLen = s.keyLen := rfl
@[simp] theorem dropHashState_key (s : State) : (dropHashState s).key = s.key := rfl
@[simp] theorem dropHashState_perm (s : State) : (dropHashState s).perm = s.perm := rfl
@[simp] theorem dropHashState_pos (s : State) : (dropHashState s).pos = s.pos := rfl
@[simp] theorem dropHashState_data (s : State) : (dropHashState s).data = s.data := rfl
@[simp] theorem dropHashState_inbox (s : State) : (dropHashState s).inbox = s.inbox := rfl
@[simp] theorem dropHashState_replies (s : State) : (dropHashState s).replies = s.replies := rfl
@[simp] theorem dropHashState_freeCount (s : State) : (dropHashState s).freeCount = s.freeCount + 1 := rfl

/-! ## `reply` -/

@[simp] theorem reply_cfg (r : Reply) (s : State) : (reply r s).cfg = s.cfg := rfl
@[simp] theorem reply_ptr (r : Reply) (s : State) : (reply r s).ptr = s.ptr := rfl
@[simp] theorem reply_len (r : Reply) (s : State) : (reply r s).len = s.len := rfl
@[simp] theorem reply_offLo (r : Reply) (s : State) : (reply r s).offLo = s.offLo := rfl
@[simp] theorem reply_offHi (r : Reply) (s : State) : (reply r s).offHi = s.offHi := rfl
@[simp] theorem reply_init (r : Reply) (s : State) : (reply r s).init = s.init := rfl
@[simp] theorem reply_err (r : Reply) (s : State) : (reply r s).err = s.err := rfl
@[simp] theorem reply_digest (r : Reply) (s : State) : (reply r s).digest = s.digest := rfl
@[simp] theorem reply_hash (r : Reply) (s : State) : (reply r s).hash = s.hash := rfl
@[simp] theorem reply_iv (r : Reply) (s : State) : (reply r s).iv = s.iv := rfl
@[simp] theorem reply_keyLen (r : Reply) (s : State) : (reply r s).keyLen = s.keyLen := rfl
@[simp] theorem reply_key (r : Reply) (s : State) : (reply r s).key = s.key := rfl
@[simp] theorem reply_perm (r : Reply) (s : State) : (reply r s).perm = s.perm := rfl
@[simp] theorem reply_pos (r : Reply) (s : State) : (reply r s).pos = s.pos := rfl
@[simp] theorem reply_data (r : Reply) (s : State) : (reply r s).data = s.data := rfl
@[simp] theorem reply_inbox (r : Reply) (s : State) : (reply r s).inbox = s.inbox := rfl
@[simp] theorem reply_replies (r : Reply) (s : State) : (reply r s).replies = s.replies ++ [r] := rfl
@[simp] theorem reply_freeCount (r : Reply) (s : State) : (reply r s).freeCount = s.freeCount := rfl

/-! ## `State.withFetchWord` -/

@[simp] theorem withFetchWord_cfg (s : State) (nbits w : Nat) : (s.withFetchWord nbits w).cfg = s.cfg := rfl
@[simp] theorem withFetchWord_ptr (s : State) (nbits w : Nat) : (s.withFetchWord nbits w).ptr = s.ptr := rfl
@[simp] theorem withFetchWord_len (s : State) (nbits w : Nat) : (s.withFetchWord nbits w).len = s.len := rfl
@[simp] theorem withFetchWord_offLo (s : State) (nbits w : Nat) : (s.withFetchWord nbits w).offLo = s.offLo := rfl
@[simp] theorem withFetchWord_offHi (s : State) (nbits w : Nat) : (s.withFetchWord nbits w).offHi = s.offHi := rfl
@[simp] theorem withFetchWord_init (s : State) (nbits w : Nat) : (s.withFetchWord nbits w).init = s.init := rfl
@[simp] theorem withFetchWord_err (s : State) (nbits w : Nat) : (s.withFetchWord nbits w).err = s.err := rfl
@[simp] theorem withFetchWord_digest (s : State) (nbits w : Nat) : (s.withFetchWord nbits w).digest = s.digest := rfl
@[simp] theorem withFetchWord_hash (s : State) (nbits w : Nat) : (s.withFetchWord nbits w).hash = s.hash := rfl
@[simp] theorem withFetchWord_iv (s : State) (nbits w : Nat) : (s.withFetchWord nbits w).iv = s.iv := rfl
@[simp] theorem withFetchWord_keyLen (s : State) (nbits w : Nat) : (s.withFetchWord nbits w).keyLen = s.keyLen := rfl
@[simp] theorem withFetchWord_key (s : State) (nbits w : Nat) : (s.withFetchWord nbits w).key = s.key := rfl
@[simp] theorem withFetchWord_perm (s : State) (nbits w : Nat) : (s.withFetchWord nbits w).perm = s.perm := rfl
@[simp] theorem withFetchWord_pos (s : State) (nbits w : Nat) : (s.withFetchWord nbits w).pos = s.pos := rfl
@[simp] theorem withFetchWord_data (s : State) (nbits w : Nat) : (s.withFetchWord nbits w).data = s.data := rfl
@[simp] theorem withFetchWord_inbox (s : State) (nbits w : Nat) : (s.withFetchWord nbits w).inbox = .wr 0x00#8 (BitVec.ofNat 32 (w % 2 ^ nbits)) :: s.inbox := rfl
@[simp] theorem withFetchWord_replies (s : State) (nbits w : Nat) : (s.withFetchWord nbits w).replies = s.replies := rfl
@[simp] theorem withFetchWord_freeCount (s : State) (nbits w : Nat) : (s.withFetchWord nbits w).freeCount = s.freeCount := rfl

/-! ## `ksa` -/

@[simp] theorem ksa_cfg (s : State) : (ksa s).cfg = s.cfg := rfl
@[simp] theorem ksa_ptr (s : State) : (ksa s).ptr = s.ptr := rfl
@[simp] theorem ksa_len (s : State) : (ksa s).len = s.len := rfl
@[simp] theorem ksa_offLo (s : State) : (ksa s).offLo = s.offLo := rfl
@[simp] theorem ksa_offHi (s : State) : (ksa s).offHi = s.offHi := rfl
@[simp] theorem ksa_init (s : State) : (ksa s).init = true := rfl
@[simp] theorem ksa_err (s : State) : (ksa s).err = s.err := rfl
@[simp] theorem ksa_digest (s : State) : (ksa s).digest = s.digest := rfl
@[simp] theorem ksa_hash (s : State) : (ksa s).hash = s.hash := rfl
@[simp] theorem ksa_iv (s : State) : (ksa s).iv = (ksaFill s.perm.box s.iv).2 := rfl
@[simp] theorem ksa_keyLen (s : State) : (ksa s).keyLen = s.keyLen := rfl
@[simp] theorem ksa_key (s : State) : (ksa s).key = s.key := rfl
@[simp] theorem ksa_perm (s : State) : (ksa s).perm = { box := ksaMix s.key s.keyLen (ksaFill s.perm.box s.iv).1, a := 0x00#8, b := 0x00#8 } := rfl
@[simp] theorem ksa_pos (s : State) : (ksa s).pos = s.pos := rfl
@[simp] theorem ksa_data (s : State) : (ksa s).data = s.data := rfl
@[simp] theorem ksa_inbox (s : State) : (ksa s).inbox = s.inbox := rfl
@[simp] theorem ksa_replies (s : State) : (ksa s).replies = s.replies := rfl
@[simp] theorem ksa_freeCount (s : State) : (ksa s).freeCount = s.freeCount := rfl

/-! ## `streamRestart` -/

@[simp] theorem streamRestart_cfg (s : State) : (streamRestart s).cfg = s.cfg := rfl
@[simp] theorem streamRestart_ptr (s : State) : (streamRestart s).ptr = s.ptr := rfl
@[simp] theorem streamRestart_len (s : State) : (streamRestart s).len = s.len := rfl
@[simp] theorem streamRestart_offLo (s : State) : (streamRestart s).offLo = s.offLo := rfl
@[simp] theorem streamRestart_offHi (s : State) : (streamRestart s).offHi = s.offHi := rfl
@[simp] theorem streamRestart_init (s : State) : (streamRestart s).init = true := rfl
@[simp] theorem streamRestart_err (s : State) : (streamRestart s).err = s.err := rfl
@[simp] theorem streamRestart_digest (s : State) : (streamRestart s).digest = s.digest := rfl
@[simp] theorem streamRestart_hash (s : State) : (streamRestart s).hash = s.hash := rfl
@[simp] theorem streamRestart_iv (s : State) : (streamRestart s).iv = (ksaFill s.perm.box s.iv).2 := rfl
@[simp] theorem streamRestart_keyLen (s : State) : (streamRestart s).keyLen = s.keyLen := rfl
@[simp] theorem streamRestart_key (s : State) : (streamRestart s).key = s.key := rfl
@[simp] theorem streamRestart_perm (s : State) : (streamRestart s).perm = prgaSkip (offset s).toNat (ksa s).perm := rfl
@[simp] theorem streamRestart_pos (s : State) : (streamRestart s).pos = offset s := rfl
@[simp] theorem streamRestart_data (s : State) : (streamRestart s).data = s.data := rfl
@[simp] theorem streamRestart_inbox (s : State) : (streamRestart s).inbox = s.inbox := rfl
@[simp] theorem streamRestart_replies (s : State) : (streamRestart s).replies = s.replies := rfl
@[simp] theorem streamRestart_freeCount (s : State) : (streamRestart s).freeCount = s.freeCount := rfl

end Sys2Proof.Machine
end

