-- ==== Sys2Proof/Tests/Slice0.lean ====
section
/-! SUPPORT. The model's own tests, and a witness for the hypotheses of every statement. Expected values are the spec's: the rule or
the vector of 95_test_vectors.md is named with each test. -/

namespace Sys2Proof.Tests

open Sys2Proof Sys2Proof.Machine

/-! ## Well-formedness: one ill-formed term for each check -/

theorem test_wf_refuses_wide_register_value : AsmStmt.wf (.wr .ptr (2 ^ 32)) = false := by decide
theorem test_wf_refuses_wide_imm8 : AsmStmt.wf (.rc4SetIv 256) = false := by decide
theorem test_wf_refuses_wide_hash_pointer : AsmStmt.wf (.hash (2 ^ 32) 0) = false := by decide
theorem test_wf_refuses_wide_hash_length : AsmStmt.wf (.hash 0 (2 ^ 32)) = false := by decide
theorem test_wf_refuses_wide_setkey_pointer : AsmStmt.wf (.setKey (2 ^ 32) 0) = false := by decide
theorem test_wf_refuses_wide_setkey_length : AsmStmt.wf (.setKey 0 (2 ^ 32)) = false := by decide
theorem test_wf_refuses_wide_crypt_pointer : AsmStmt.wf (.crypt (2 ^ 32) 0) = false := by decide
theorem test_wf_refuses_wide_crypt_length : AsmStmt.wf (.crypt 0 (2 ^ 32)) = false := by decide
theorem test_wf_refuses_wide_stream_pointer : AsmStmt.wf (.stream (2 ^ 32) 0 0) = false := by decide
theorem test_wf_refuses_wide_stream_length : AsmStmt.wf (.stream 0 (2 ^ 32) 0) = false := by decide
theorem test_wf_refuses_wide_offset : AsmStmt.wf (.stream 0 0 (2 ^ 64)) = false := by decide
theorem test_wf_accepts_the_largest_numbers :
    AsmStmt.wf (.stream (2 ^ 32 - 1) (2 ^ 32 - 1) (2 ^ 64 - 1)) = true ∧ AsmStmt.wf (.rc4SetIv 255) = true := by decide
theorem test_config_refuses_empty_data : ¬ Config.wf ⟨0⟩ := by decide
theorem test_config_refuses_data_past_the_address_space : ¬ Config.wf ⟨2 ^ 32 + 1⟩ := by decide
theorem test_config_accepts_both_ends : Config.wf ⟨1⟩ ∧ Config.wf ⟨2 ^ 32⟩ := by decide
theorem test_memory_refuses_unsorted : ¬ Memory.wf [(1, 0x61#8), (0, 0x62#8)] := by decide
theorem test_memory_refuses_repeated_address : ¬ Memory.wf [(1, 0x61#8), (1, 0x62#8)] := by decide
theorem test_memory_refuses_listed_default : ¬ Memory.wf [(0, 0x00#8)] := by decide

/-! ## Decoding: words written bit by bit from 30_encoding.md R91, R92, R95 (rsv, imm8, op) -/

theorem test_decode_md5Hash : decode 0b0000000000000000_00000000_00000001#32 = .ok .md5Hash := by decide
theorem test_decode_rc4SetKey : decode 0b0000000000000000_00000000_00010000#32 = .ok .rc4SetKey := by decide
theorem test_decode_rc4SetIv : decode 0b0000000000000000_00101010_00010001#32 = .ok (.rc4SetIv 0x2A#8) := by decide
theorem test_decode_rc4SetIv_largest : decode 0b0000000000000000_11111111_00010001#32 = .ok (.rc4SetIv 0xFF#8) := by decide
theorem test_decode_rc4Crypt : decode 0b0000000000000000_00000000_00010010#32 = .ok .rc4Crypt := by decide
theorem test_decode_rc4Stream : decode 0b0000000000000000_00000000_00010011#32 = .ok .rc4Stream := by decide
theorem test_decode_rc4Reset : decode 0b0000000000000000_00000000_00010100#32 = .ok .rc4Reset := by decide
/-- V50 to V53, and the bounds of the ranges of R97. -/
theorem test_decode_refuses :
    decode 0x00000000#32 = .error .unassignedOp ∧ decode 0x00000101#32 = .error .immediateBits ∧
    decode 0x00010014#32 = .error .reservedBits ∧ decode 0x00000015#32 = .error .unassignedOp ∧
    decode 0x00000002#32 = .error .unassignedOp ∧ decode 0x0000000F#32 = .error .unassignedOp ∧
    decode 0x000000FF#32 = .error .unassignedOp ∧ decode 0x80000011#32 = .error .reservedBits ∧
    decode 0x00008010#32 = .error .immediateBits := by decide
/-- No word selects two rows: where two rows' masks overlap, their patterns differ. -/
theorem test_rows_do_not_overlap :
    opcodeTable.Pairwise (fun r q => r.pattern &&& (r.mask &&& q.mask) ≠ q.pattern &&& (r.mask &&& q.mask)) := by decide
/-- The words of the table of R100. -/
theorem test_encode_words :
    encode .md5Hash = 0x00000001#32 ∧ encode .rc4SetKey = 0x00000010#32 ∧ encode (.rc4SetIv 0x2A#8) = 0x00002A11#32 ∧
    encode .rc4Crypt = 0x00000012#32 ∧ encode .rc4Stream = 0x00000013#32 ∧ encode .rc4Reset = 0x00000014#32 := by decide
theorem test_decodeTableWord : decodeTableWord 32 0x00002A11 = some (.rc4SetIv 0x2A#8) ∧ decodeTableWord 32 0x15 = none := by decide
/-- Every register's index selects it (10_state.md R21). -/
theorem test_register_indices :
    [Reg.cmd, .status, .ptr, .len, .offLo, .offHi, .posLo, .posHi, .iv, .keyLen, .digest0, .digest1, .digest2, .digest3].map
      (fun r => decodeReg (regIndex r)) =
    [Reg.cmd, .status, .ptr, .len, .offLo, .offHi, .posLo, .posHi, .iv, .keyLen, .digest0, .digest1, .digest2, .digest3].map
      some := by decide
/-- 43_rc4_stream.md P3's listing, third pseudo-instruction (R101). -/
theorem test_expand_stream :
    expandStmt (.stream 0x400 5 0) =
      [.wr 0x02#8 0x400#32, .wr 0x03#8 5#32, .wr 0x04#8 0#32, .wr 0x05#8 0#32, .wr 0x00#8 0x13#32] := by decide

/-! ## States to start from -/

/-- What an outcome's next state shows, if there is one. -/
def look {α : Type} (f : State → α) : Host.Outcome State Fault Refusal → Option α
  | .next s => some (f s)
  | .fault _ => none
  | .refused _ => none

/-- The bytes of `DATA` from `a` on. -/
def bytesAt (a n : Nat) (s : State) : List Byte := (List.range n).map (fun k => s.data.peek (a + k))

/-- `DATA` = "dvsku" at 0, "01234" at 5, the first five bytes as the buffer; the state is otherwise that of power-on. -/
def loaded : State :=
  { State.powerOn ⟨16⟩ with
    len := 5
    data := [(0, 0x64#8), (1, 0x76#8), (2, 0x73#8), (3, 0x6B#8), (4, 0x75#8), (5, 0x30#8), (6, 0x31#8), (7, 0x32#8), (8, 0x33#8),
      (9, 0x34#8)] }

def dvskuBox1 : Vector Byte 64 :=
  #v[0x9C#8, 0x28#8, 0xF3#8, 0x51#8, 0x86#8, 0x83#8, 0x10#8, 0xA9#8, 0xBC#8, 0x77#8, 0x9D#8, 0x19#8, 0xB3#8, 0x70#8, 0xD2#8, 0x9B#8] ++
  #v[0x80#8, 0xD5#8, 0x7D#8, 0x2F#8, 0xE4#8, 0xCE#8, 0x11#8, 0xBE#8, 0x79#8, 0xCA#8, 0xF2#8, 0x66#8, 0xC9#8, 0xFF#8, 0x21#8, 0x0C#8] ++
  #v[0xBA#8, 0x71#8, 0xDB#8, 0xC5#8, 0x74#8, 0x27#8, 0x5F#8, 0x72#8, 0x5B#8, 0x0F#8, 0x7A#8, 0x6F#8, 0xDA#8, 0xF0#8, 0x35#8, 0xEB#8] ++
  #v[0x2D#8, 0x6D#8, 0xDE#8, 0x59#8, 0xEE#8, 0x18#8, 0xA8#8, 0x7C#8, 0x9F#8, 0xFB#8, 0xA5#8, 0x6C#8, 0x4E#8, 0x0D#8, 0xD0#8, 0xEC#8]

def dvskuBox2 : Vector Byte 64 :=
  #v[0xD6#8, 0xC2#8, 0x99#8, 0xF5#8, 0x5D#8, 0x7B#8, 0x1C#8, 0x94#8, 0x88#8, 0x49#8, 0x01#8, 0x24#8, 0x9E#8, 0x46#8, 0x91#8, 0x05#8] ++
  #v[0x56#8, 0x33#8, 0x93#8, 0x57#8, 0x90#8, 0x5A#8, 0xD4#8, 0xA3#8, 0xE5#8, 0x92#8, 0xF7#8, 0x6A#8, 0xA1#8, 0xF8#8, 0xC8#8, 0xAB#8] ++
  #v[0x63#8, 0xB8#8, 0xFA#8, 0x60#8, 0x87#8, 0x22#8, 0x16#8, 0x13#8, 0x52#8, 0x1B#8, 0xC0#8, 0x08#8, 0x6E#8, 0x2B#8, 0x48#8, 0xA2#8] ++
  #v[0xE2#8, 0x50#8, 0xCB#8, 0xA6#8, 0xB1#8, 0xCF#8, 0x39#8, 0x3C#8, 0xFC#8, 0x30#8, 0x23#8, 0x4F#8, 0x3D#8, 0xAC#8, 0xC1#8, 0x36#8]

def dvskuBox3 : Vector Byte 64 :=
  #v[0xB0#8, 0x65#8, 0x68#8, 0x58#8, 0x09#8, 0xAE#8, 0x38#8, 0xD9#8, 0xDC#8, 0xE8#8, 0x9A#8, 0x1F#8, 0xC6#8, 0x1E#8, 0xEA#8, 0x75#8] ++
  #v[0x8F#8, 0xE3#8, 0x61#8, 0x8B#8, 0x54#8, 0xFE#8, 0xD7#8, 0x69#8, 0x26#8, 0x42#8, 0x5C#8, 0xB6#8, 0x31#8, 0x06#8, 0xF1#8, 0x81#8] ++
  #v[0xE6#8, 0x7F#8, 0xF4#8, 0xA7#8, 0xFD#8, 0x3B#8, 0x5E#8, 0x89#8, 0x4C#8, 0x20#8, 0xE1#8, 0x53#8, 0x1A#8, 0xB4#8, 0x32#8, 0x64#8] ++
  #v[0xAD#8, 0x7E#8, 0x82#8, 0xF9#8, 0xE9#8, 0xAA#8, 0x0A#8, 0x2A#8, 0x25#8, 0x4B#8, 0x2C#8, 0xD8#8, 0x85#8, 0xCD#8, 0x84#8, 0x4D#8]

def dvskuBox4 : Vector Byte 64 :=
  #v[0x98#8, 0xB7#8, 0x47#8, 0x40#8, 0x0E#8, 0x17#8, 0xA0#8, 0x8C#8, 0xC3#8, 0x62#8, 0xC7#8, 0x3F#8, 0x15#8, 0x67#8, 0x29#8, 0x55#8] ++
  #v[0xB9#8, 0x44#8, 0xAF#8, 0xD3#8, 0xD1#8, 0xDF#8, 0x34#8, 0x41#8, 0x78#8, 0x97#8, 0x4A#8, 0xE0#8, 0xBB#8, 0xBF#8, 0xE7#8, 0xBD#8] ++
  #v[0x43#8, 0x96#8, 0x8E#8, 0x95#8, 0x73#8, 0xDD#8, 0x76#8, 0x04#8, 0x3E#8, 0xB2#8, 0xB5#8, 0x0B#8, 0xF6#8, 0x45#8, 0x12#8, 0x14#8] ++
  #v[0xC4#8, 0x02#8, 0x1D#8, 0x07#8, 0xA4#8, 0x2E#8, 0xCC#8, 0x37#8, 0x03#8, 0x8D#8, 0x8A#8, 0x00#8, 0x3A#8, 0xEF#8, 0x6B#8, 0xED#8]
/-- V20: the box of key "dvsku", IV 0. -/
def dvskuBox : Vector Byte 256 := dvskuBox1 ++ dvskuBox2 ++ dvskuBox3 ++ dvskuBox4

/-- `loaded` with an active stream at position 0 over "01234" at address 5. -/
def streaming : State :=
  { loaded with ptr := 5, init := true, keyLen := 5, perm := { box := dvskuBox, a := 0, b := 0 } }

/-- `loaded` with a key, no box, and the transaction `op` next. -/
def keyed (op : HostOp) : State := { loaded with keyLen := 5, inbox := [op] }

/-! ## The commands -/

/-- 40_md5.md R134: the digest of "dvsku", through the registers. -/
theorem test_md5Hash_dvsku :
    look (fun t => (readReg 0x0C#8 t, readReg 0x0D#8 t, readReg 0x0E#8 t, readReg 0x0F#8 t)) (exec .md5Hash loaded) =
      some (0x213F78E7#32, 0x9954CB2E#32, 0x2989795A#32, 0xA4B5AB32#32) := by decide +kernel
/-- V54: the buffer leaves `DATA`. -/
theorem test_md5Hash_range :
    exec .md5Hash { State.reset with ptr := 0xFFF, len := 2 } = .next { State.reset with ptr := 0xFFF, len := 2, err := .range } :=
  rfl
/-- 41_rc4_ksa.md R161: the example. -/
theorem test_rc4SetKey :
    look (fun t => (t.key.toList.take 5, t.keyLen, t.init, t.err)) (exec .rc4SetKey loaded) =
      some ([0x64#8, 0x76#8, 0x73#8, 0x6B#8, 0x75#8], 5#32, false, .ok) := by decide +kernel
/-- D24: an empty key is accepted, and V57: an address past the end is not, even for an empty buffer. -/
theorem test_rc4SetKey_empty :
    look (fun t => (t.keyLen, t.err)) (exec .rc4SetKey { loaded with keyLen := 5, ptr := 16, len := 0 }) = some (0#32, .ok) ∧
    look (fun t => (t.keyLen, t.err)) (exec .rc4SetKey { loaded with keyLen := 5, ptr := 17, len := 0 }) = some (5#32, .range) := by
  decide
/-- R162: word 0x00002A11 sets `IV` to 0x2A, and clears an older error. -/
theorem test_rc4SetIv :
    look (fun t => (t.iv, t.err)) (executeCommand 0x00002A11#32 { State.reset with err := .range }) = some (0x2A#8, .ok) := by decide
/-- V40 and V44, the first two bytes, and R181: the keystream of V20's box over "01"; `RC4.CRYPT` then invalidates and leaves
`POS`. -/
theorem test_rc4Crypt :
    look (fun t => (bytesAt 5 3 t, t.init, t.pos, t.perm.a, t.perm.b)) (exec .rc4Crypt { streaming with len := 2 }) =
      some ([0x68#8, 0xA3#8, 0x32#8], false, 0#64, 0x02#8, 0x1B#8) := by decide +kernel
/-- V58 before V59: out of range is reported before an empty key. -/
theorem test_rc4Crypt_errors :
    look (fun t => t.err) (exec .rc4Crypt { State.reset with ptr := 0xFFFFFFFF, len := 0xFFFFFFFF }) = some .range ∧
    look (fun t => t.err) (exec .rc4Crypt { State.reset with ptr := 0x10, len := 3 }) = some .noKey := by decide
/-- V40, the first two bytes, and R181: the stream continues at `OFF = POS = 0`. -/
theorem test_rc4Stream :
    look (fun t => (bytesAt 5 3 t, t.init, t.pos, t.perm.a, t.perm.b)) (exec .rc4Stream { streaming with len := 2 }) =
      some ([0x68#8, 0xA3#8, 0x32#8], true, 2#64, 0x02#8, 0x1B#8) := by decide +kernel
/-- V64: with the key emptied, a stream that must restart reports `ERR_NOKEY` and keeps `INIT`. -/
theorem test_rc4Stream_noKey :
    look (fun t => (statusWord t, t.pos)) (exec .rc4Stream { streaming with keyLen := 0, pos := 10 }) = some (0x31#32, 10#64) := by
  decide
/-- V47: `RC4.RESET` after a stream. -/
theorem test_rc4Reset :
    look (fun t => (t.init, t.perm.a, t.perm.b, t.pos, t.keyLen)) (exec .rc4Reset { streaming with pos := 10 }) =
      some (false, 0x00#8, 0x00#8, 0#64, 5#32) := by decide
/-- V52: an illegal word resets nothing. -/
theorem test_illegal_word :
    look (fun t => (statusWord t, t.pos)) (executeCommand 0x00010014#32 { streaming with pos := 10 }) = some (0x11#32, 10#64) := by
  decide

/-! ## The sub-units -/

/-- 40_md5.md R138 and 95_test_vectors.md V14: `b` after step 0 of "dvsku". -/
theorem test_md5_first_step :
    (md5Step (blockOf (md5Pad [0x64#8, 0x76#8, 0x73#8, 0x6B#8, 0x75#8]) 0) 0 md5InitV).b = 0x5edb192a#32 := by decide +kernel
/-- P5: 56 bytes spill into a second padding block. -/
theorem test_md5_two_padding_blocks :
    (md5Run HashState.reset (List.replicate 56 0x61#8)).h.a = 0xc78a0c3b#32 := by decide +kernel
/-- V20: the first four mix steps. -/
theorem test_mix_steps :
    let key := storeKey 0 [0x64#8, 0x76#8, 0x73#8, 0x6B#8, 0x75#8] (Vector.replicate 255 0x00#8)
    let after := forUp (ksaMixStep key 5) 4 0 ((ksaFill (Vector.replicate 256 0x00#8) 0x00#8).1, 0x00#8)
    (after.2, boxAt after.1 0, boxAt after.1 1, boxAt after.1 2, boxAt after.1 3) = (0xAE#8, 0x9C#8, 0x28#8, 0xB8#8, 0x51#8) := by
  decide +kernel
/-- R181: three keystream bytes. -/
theorem test_keystream :
    (List.range 3).map (keystreamByte streaming.perm) = [0x58#8, 0x92#8, 0x4D#8] := by decide +kernel

/-! ## The host port and the step -/

/-- V62: `CMD` and reserved indices read 0. -/
theorem test_rd_zeros :
    (readReg 0x00#8 streaming, readReg 0x0A#8 streaming, readReg 0x80#8 streaming) = (0#32, 0#32, 0#32) := by decide
/-- V63: writes that are ignored. -/
theorem test_wr_ignored :
    hostWr 0x01#8 0xFFFFFFFF#32 streaming = .next streaming ∧ hostWr 0x06#8 7#32 streaming = .next streaming ∧
    hostWr 0x0A#8 1#32 streaming = .next streaming := ⟨rfl, rfl, rfl⟩
/-- The word of a row is the first thing to run after reset. -/
theorem test_withFetchWord :
    step (State.reset.withFetchWord 32 0x00002A11) = exec (.rc4SetIv 0x2A#8) State.reset := rfl
/-- 20_memory.md R67: there is no address at `DATA_SIZE`; the last one below it exists. -/
theorem test_host_data_bound :
    step { loaded with inbox := [.getData 16#32] } = .fault (.noSuchAddress 16) ∧
    step { loaded with inbox := [.getData 15#32] } = .next { loaded with replies := [.byte 0x00#8] } := ⟨rfl, rfl⟩
/-- A write of the unlisted value removes the entry. -/
theorem test_poke_canonical : Memory.poke [(3, 0x61#8), (5, 0x62#8)] 3 0x00#8 = [(5, 0x62#8)] := by decide

/-! ## Witnesses: a state and operands that meet the hypotheses of each statement -/

theorem inside : ¬ outOfRange loaded := by unfold outOfRange; decide
theorem loaded_wf : Memory.wf loaded.data := by decide
theorem past_the_end : outOfRange { loaded with ptr := 12 } := by unfold outOfRange; decide

theorem witness_DecodeFollowsTheOpcodeMap :
    decode 0x00002A11#32 = .ok (.rc4SetIv 0x2A#8) ∧ 0x00002A11#32 &&& 0xFFFF00FF#32 = 0x00000011#32 := by decide
theorem witness_DecodeInvertsEncode : (Instr.rc4SetIv 0xFF#8).wf = true := rfl
/-- One word for each case of R97, at the ends of its range. -/
theorem witness_WordsOutsideTheMapAreIllegal :
    (keyed (.wr 0x00#8 0x15#32)).inbox = .wr 0x00#8 0x15#32 :: [] ∧
    ∀ w ∈ [0x00#32, 0x02#32, 0x0F#32, 0x15#32, 0xFF#32, 0x00010014#32, 0x80000011#32, 0x00000101#32, 0x0000FF10#32],
      ∀ row ∈ opcodeTable, w &&& row.mask ≠ row.pattern := ⟨rfl, by simp [opcodeTable, opcodeRow]⟩
theorem witness_StepRunsTheDecodedCommand :
    (keyed (.wr 0x00#8 0x13#32)).inbox = .wr 0x00#8 0x13#32 :: [] ∧ decode 0x13#32 = .ok .rc4Stream ∧ Instr.wf .rc4Stream = true :=
  ⟨rfl, rfl, rfl⟩
theorem witness_WrByIndex :
    ∀ idx ∈ [0x00#8, 0x02#8, 0x03#8, 0x04#8, 0x05#8, 0x01#8, 0x06#8, 0xFF#8], (keyed (.wr idx 7#32)).inbox = .wr idx 7#32 :: [] :=
  fun _ _ => rfl
theorem witness_RdByIndex :
    ∀ idx ∈ [0x00#8, 0x01#8, 0x05#8, 0x06#8, 0x09#8, 0x0A#8, 0x0B#8, 0x0C#8, 0x0F#8, 0x10#8, 0xFF#8],
      (keyed (.rd idx)).inbox = .rd idx :: [] := fun _ _ => rfl
theorem witness_ReadOnlyAndReservedIndices :
    (keyed (.wr 0x01#8 0xFFFFFFFF#32)).inbox = .wr 0x01#8 0xFFFFFFFF#32 :: [] ∧ (0x10#8 ≤ 0x10#8 ∧ 0x10#8 ≤ 0xFF#8) ∧
    (keyed (.rd 0x0B#8)).inbox = .rd 0x0B#8 :: [] :=
  ⟨rfl, by decide, rfl⟩
/-- The third clause: a step that completes and is neither a power-on reset nor a command. -/
theorem witness_RegistersKeptByOtherSteps :
    step (keyed (.wr 0x06#8 7#32)) = .next { loaded with keyLen := 5 } ∧ (∀ rest, (keyed (.wr 0x06#8 7#32)).inbox ≠ .powerOn :: rest) ∧
    ∀ w rest, (keyed (.wr 0x06#8 7#32)).inbox ≠ .wr 0x00#8 w :: rest :=
  ⟨rfl, by simp [keyed], by simp [keyed]⟩
theorem witness_StatusLayout :
    executeCommand 0x11#32 loaded = .next { loaded with iv := 0x00#8, err := .ok } ∧
    (keyed (.rd 0x01#8)).inbox = .rd 0x01#8 :: [] ∧
    step (keyed (.rd 0x01#8)) = .next { loaded with keyLen := 5, replies := [.word 0#32] } := ⟨rfl, rfl, rfl⟩
/-- Each clause at its bound: addresses 15 and 16 of a `DATA` of 16 bytes. -/
theorem witness_HostDataAccess :
    Memory.wf (keyed (.putData 15#32 0x61#8)).data ∧ (keyed (.putData 15#32 0x61#8)).inbox = .putData 15#32 0x61#8 :: [] ∧
    (15#32).toNat < loaded.cfg.dataSize ∧ (keyed (.getData 16#32)).inbox = .getData 16#32 :: [] ∧
    loaded.cfg.dataSize ≤ (16#32).toNat := ⟨by decide, rfl, by decide, rfl, by decide⟩
theorem witness_IdleStepKeepsAllState : loaded.inbox = [] := rfl
theorem witness_OnlyStrayHostAccessStops :
    (∃ t, step (keyed (.rd 0x01#8)) = .next t) ∧
    ¬ (∀ op rest, (keyed (.getData 16#32)).inbox = op :: rest → addressExists loaded.cfg op) := by
  refine ⟨⟨_, rfl⟩, fun h => ?_⟩
  have := h _ _ rfl
  revert this
  unfold addressExists
  decide
theorem witness_PseudoInstructionsExpand :
    (0x400 < 2 ^ 32 ∧ 5 < 2 ^ 32 ∧ 2 ^ 64 - 1 < 2 ^ 64) ∧
    ({ loaded with inbox := expandStmt (.hash 0x400 5) } : State).inbox = expandStmt (.hash 0x400 5) ++ [] ∧
    ({ loaded with inbox := expandStmt (.setKey 0x400 5) } : State).inbox = expandStmt (.setKey 0x400 5) ++ [] ∧
    ({ loaded with inbox := expandStmt (.crypt 0x400 5) } : State).inbox = expandStmt (.crypt 0x400 5) ++ [] ∧
    ({ loaded with inbox := expandStmt (.stream 0x400 5 (2 ^ 64 - 1)) } : State).inbox =
      expandStmt (.stream 0x400 5 (2 ^ 64 - 1)) ++ [] := ⟨by decide, rfl, rfl, rfl, rfl⟩
theorem witness_PowerOnResetValues : (keyed .powerOn).inbox = .powerOn :: [] := rfl
theorem witness_InvariantHoldsAtReset : Config.wf ⟨2 ^ 32⟩ := by decide

/-- A state in which the invariant's clause about the box applies: a generated box, a stream at position 0. -/
def generated : State :=
  { loaded with ptr := 5, init := true, keyLen := 5, perm := generatedBox (Vector.replicate 255 0x61#8) 5#32 0x00#8 }
theorem generated_inv : generated.Inv :=
  { config := by decide
    canonical := by decide
    bounded := by decide
    generated := fun _ => ⟨Vector.replicate 255 0x61#8, 5#32, 0x00#8, 0, by decide, rfl, rfl⟩ }
theorem witness_EveryStepKeepsTheInvariant :
    State.Inv { generated with inbox := [.wr 0x00#8 0x14#32] } ∧
    step { generated with inbox := [.wr 0x00#8 0x14#32] } = exec .rc4Reset generated :=
  ⟨⟨generated_inv.config, generated_inv.canonical, generated_inv.bounded, generated_inv.generated⟩, rfl⟩
theorem witness_InitialisedBoxIsAPermutation : generated.Inv ∧ generated.init = true := ⟨generated_inv, rfl⟩
theorem witness_ErrorOfEachCommand :
    (∀ row ∈ opcodeTable, 0x15#32 &&& row.mask ≠ row.pattern) ∧ decode 0x12#32 = .ok .rc4Crypt ∧
    (takesBuffer .rc4Crypt ∧ outOfRange { loaded with ptr := 12 }) ∧
    (¬ (takesBuffer .rc4Crypt ∧ outOfRange loaded) ∧ needsKeySchedule .rc4Crypt loaded ∧ loaded.keyLen = 0) ∧
    ¬ (takesBuffer .rc4Reset ∧ outOfRange { loaded with ptr := 12 }) ∧ ¬ (needsKeySchedule .rc4Reset loaded ∧ loaded.keyLen = 0) :=
  ⟨by decide, rfl, ⟨trivial, past_the_end⟩, ⟨fun h => inside h.2, rfl, rfl⟩, fun h => h.1, fun h => h.1⟩
/-- The stream's second ground to restart, alone: `INIT = 1` and `OFF != POS`. -/
theorem witness_StreamMustRestart :
    needsKeySchedule .rc4Stream { streaming with pos := 10 } ∧ ({ streaming with pos := 10 } : State).init = true :=
  ⟨.inr (by decide), rfl⟩
theorem witness_FailedCommandChangesOnlyErr :
    executeCommand 0x15#32 loaded = .next { loaded with err := .illegal } ∧ ({ loaded with err := .illegal } : State).err ≠ .ok :=
  ⟨rfl, by decide⟩
/-- At the bounds: a buffer that ends at `DATA_SIZE`, a key of one byte. -/
theorem witness_GoodInputsAlwaysSucceed :
    decode 0x13#32 = .ok .rc4Stream ∧
    ({ loaded with ptr := 11, keyLen := 1 } : State).ptr.toNat + ({ loaded with ptr := 11, keyLen := 1 } : State).len.toNat ≤
      loaded.cfg.dataSize ∧ ({ loaded with ptr := 11, keyLen := 1 } : State).keyLen ≠ 0 := ⟨rfl, by decide, by decide⟩
theorem witness_OperandRegistersBelongToTheHost :
    exec .rc4Reset generated = .next (succeed { generated with init := false, perm := { generated.perm with a := 0, b := 0 }, pos := 0 }) ∧
    (∀ idx v rest, (keyed (.rd 0x02#8)).inbox = .wr idx v :: rest → idx = 0x00#8) ∧
    (∀ rest, (keyed (.rd 0x02#8)).inbox ≠ .powerOn :: rest) ∧ Instr.rc4Crypt ≠ .rc4Stream ∧
    ((keyed (.wr 0x05#8 7#32)).inbox = .wr 0x05#8 7#32 :: [] ∧ 0x05#8 ∈ [0x02#8, 0x03#8, 0x04#8, 0x05#8]) :=
  ⟨rfl, by simp [keyed], by simp [keyed], by decide, rfl, by decide⟩
theorem witness_InitFlagLifecycle :
    ∃ t, exec .rc4Reset generated = .next t ∧ t.err = .ok := ⟨_, rfl, rfl⟩
theorem witness_WritersOfEachRegister :
    ∃ t, exec (.rc4SetIv 0x2A#8) generated = .next t ∧ Instr.rc4SetIv 0x2A#8 ≠ .md5Hash ∧ Instr.rc4SetIv 0x2A#8 ≠ .rc4SetKey :=
  ⟨_, rfl, by decide, by decide⟩
/-- Below the buffer, past its end (address 10), and a command that stores nothing. -/
theorem witness_CommandsWriteOnlyTheirBuffer :
    Memory.wf generated.data ∧ (4 < generated.ptr.toNat ∧ generated.ptr.toNat + generated.len.toNat ≤ 10) ∧
    ∃ t, exec (.rc4SetIv 0x2A#8) generated = .next t := ⟨by decide, by decide, _, rfl⟩
theorem witness_HashAndCipherAreIndependent : Instr.rc4Reset ≠ .md5Hash := by decide
/-- Two states that differ in all that is unspecified: HashState, `KEY`, and `BOX` while `INIT = 0`. -/
theorem witness_UnspecifiedStateInfluencesNothing :
    SameSpecified loaded
      { loaded with
        hash := { h := md5InitV, count := 1, buf := Vector.replicate 64 0xFF#8, bufLen := 1 }
        key := Vector.replicate 255 0xFF#8
        perm := { box := Vector.replicate 256 0xFF#8, a := 0, b := 0 }
        freeCount := 1 } := by
  constructor
  case key => intro k hk; exact absurd hk (by simp [loaded, State.powerOn, keyBytesUsed])
  case box => intro h; exact absurd h (by decide)
  all_goals rfl
theorem witness_KeyIsCopied :
    ¬ outOfRange loaded ∧ step (keyed (.putData 0#32 0x00#8)) = .next { loaded with keyLen := 5, data := loaded.data.tail } ∧
    (∀ w rest, (keyed (.putData 0#32 0x00#8)).inbox = .wr 0x00#8 w :: rest → decode w ≠ .ok .rc4SetKey) ∧
    ∀ rest, (keyed (.putData 0#32 0x00#8)).inbox ≠ .powerOn :: rest :=
  ⟨inside, rfl, by simp [keyed], by simp [keyed]⟩
/-- Each round's first and last step. -/
theorem witness_RoundFunctions :
    (0 < 16 ∧ 15 < 16) ∧ (16 ≤ 16 ∧ 31 < 32) ∧ (32 ≤ 32 ∧ 47 < 48) ∧ (48 ≤ 48 ∧ 63 < 64) := by decide
theorem witness_StepTables : ∃ j : Fin 64, j.val / 16 = (3 : Fin 4).val ∧ md5G j.val = (9 : Fin 16).val := ⟨63, by decide⟩
theorem witness_CompressionIsSixtyFourSteps : 63 < 64 := by decide
theorem witness_AbsorptionBuffersTheRemainder : (62 : Fin 64).val < (List.replicate 127 0x61#8).length % 64 := by simp
/-- R130's two cases where they meet. -/
theorem witness_FinalPadsTheRemainder :
    ({ HashState.reset with bufLen := 55 } : HashState).bufLen.val ≤ 55 ∧
    56 ≤ ({ HashState.reset with bufLen := 56 } : HashState).bufLen.val := by decide
/-- R131's examples at the bound: 55 and 56 bytes. -/
theorem witness_CompressionCount :
    1 ≤ (List.replicate 55 0x61#8).length ∧ (List.replicate 55 0x61#8).length % 64 ≤ 55 ∧
    56 ≤ (List.replicate 56 0x61#8).length % 64 := by decide
theorem witness_HashDigestsTheBuffer :
    outOfRange { loaded with ptr := 12 } ∧ (¬ outOfRange { loaded with ptr := 16, len := 0 }) ∧ ¬ outOfRange loaded ∧ loaded.len ≠ 0 :=
  ⟨past_the_end, by unfold outOfRange; decide, inside, by decide⟩
theorem witness_HashIsAFunctionOfTheBytes :
    ¬ outOfRange loaded ∧ ¬ outOfRange { loaded with iv := 0x2A#8 } ∧ bufferBytes loaded = bufferBytes { loaded with iv := 0x2A#8 } :=
  ⟨inside, inside, rfl⟩
theorem witness_DigestRegistersShowTheAccumulator :
    ({ loaded with digest := md5Serialize md5InitV } : State).digest = md5Serialize md5InitV := rfl
theorem witness_HashAndSetKeyAreIdempotent :
    (∃ t, exec .md5Hash { loaded with len := 0 } = .next t) ∧ ∃ t, exec .rc4SetKey { loaded with len := 0 } = .next t :=
  ⟨⟨_, rfl⟩, ⟨_, rfl⟩⟩
theorem witness_SetKeyCopiesTheKey :
    outOfRange { loaded with ptr := 12 } ∧ ¬ outOfRange loaded ∧ (4 : Fin 255).val < min loaded.len.toNat 255 :=
  ⟨past_the_end, inside, by decide⟩
theorem witness_SetIvSetsTheIv : (0x00010011#32).extractLsb' 16 16 ≠ 0#16 ∧ (0x80000011#32).extractLsb' 16 16 ≠ 0#16 := by decide
theorem witness_MixFollowsTheRecurrence : (1#32 : Word) ≠ 0 := by decide
/-- Keys that differ only above the bytes used. -/
theorem witness_KeyScheduleIsDetermined :
    let s : State := { loaded with keyLen := 255 }
    let t : State := { loaded with keyLen := 300 }
    min s.keyLen.toNat 255 = min t.keyLen.toNat 255 ∧ s.keyLen ≠ 0 ∧ s.iv = t.iv ∧
      ∀ k : Fin 255, k.val < min s.keyLen.toNat 255 → s.key.get k = t.key.get k := ⟨by decide, by decide, rfl, fun _ _ => rfl⟩
theorem witness_LongKeysAreCutAt255 : 255 ≤ (255#32 : Word).toNat ∧ 255 ≤ (300#32 : Word).toNat := by decide
theorem witness_KeyAndIvChangesKeepTheBox : ∃ t, exec (.rc4SetIv 0x2A#8) generated = .next t := ⟨_, rfl⟩
theorem witness_ScheduleAndAdvanceKeepPermutations : IsPermutation (Vector.ofFn fun k : Fin 256 => BitVec.ofNat 8 k.val) := by
  intro v
  refine ⟨v, ?_, fun j hj => ?_⟩
  · simp [boxAt]
  · simpa [boxAt] using hj
/-- The clause where the two indices meet: `A` becomes 1, and `B` is 1 and gains an entry that is 0. -/
theorem witness_AdvanceStepAndOutputByte :
    let c : PermBox := { box := Vector.replicate 256 0x00#8, a := 0, b := 1 }
    c.a + 1#8 = c.b + boxAt c.box (c.a + 1#8) := by
  simp [boxAt]
/-- Out of range; no key; a box to generate; a box to continue with. -/
theorem witness_CryptXorsTheBufferOnce :
    Memory.wf loaded.data ∧ outOfRange { loaded with ptr := 12 } ∧ (¬ outOfRange loaded ∧ loaded.init = false ∧ loaded.keyLen = 0) ∧
    (({ loaded with keyLen := 5 } : State).init = false ∧ ({ loaded with keyLen := 5 } : State).keyLen ≠ 0) ∧ streaming.init = true :=
  ⟨loaded_wf, past_the_end, ⟨inside, rfl, rfl⟩, ⟨rfl, by decide⟩, rfl⟩
theorem generated_inside : ¬ outOfRange generated := by unfold outOfRange; decide
theorem witness_CryptContinuesAnActiveStream :
    (∃ t, exec .rc4Reset loaded = .next t ∧ loaded.init = false) ∧
    Memory.wf generated.data ∧ ¬ outOfRange generated ∧ generated.init = true ∧
    generated.perm = prgaSkip generated.pos.toNat (generatedBox (Vector.replicate 255 0x61#8) 5#32 0x00#8) :=
  ⟨⟨_, rfl, rfl⟩, by decide, generated_inside, rfl, rfl⟩
theorem witness_CipherTwiceRestoresTheData :
    Memory.wf loaded.data ∧ ¬ outOfRange { loaded with keyLen := 5 } ∧ ({ loaded with keyLen := 5 } : State).keyLen ≠ 0 ∧
    ({ loaded with keyLen := 5 } : State).init = false ∧ offset { streaming with pos := 10 } ≠ ({ streaming with pos := 10 } : State).pos :=
  ⟨loaded_wf, inside, by decide, rfl, by decide⟩
/-- Both kinds of call: one that restarts at once, one that continues. -/
theorem witness_StreamXorsAtTheOffset :
    Memory.wf streaming.data ∧ (0#64 : Dword) = streaming.offHi ++ streaming.offLo ∧
    (False ↔ streaming.init = false ∨ (0#64 : Dword) ≠ streaming.pos) ∧
    (True ↔ loaded.init = false ∨ (0#64 : Dword) ≠ loaded.pos) ∧ outOfRange { loaded with ptr := 12 } ∧ loaded.keyLen = 0 ∧
    ¬ outOfRange loaded ∧ ({ loaded with keyLen := 5 } : State).keyLen ≠ 0 :=
  ⟨by decide, by decide, by decide, by decide, past_the_end, rfl, inside, by decide⟩
theorem witness_StreamKeepsThePosition :
    Memory.wf generated.data ∧ generated.init = true ∧ offset generated = generated.pos ∧
    generated.perm = prgaSkip generated.pos.toNat (generatedBox (Vector.replicate 255 0x61#8) 5#32 0x00#8) ∧
    (offset generated).toNat + generated.len.toNat < 2 ^ 64 := ⟨by decide, rfl, by decide, rfl, by decide⟩
/-- The premise on the outcome of `RC4.STREAM`: it completes with `ERR = 0` on an empty buffer. -/
theorem witness_StreamCompletes : ∃ t, exec .rc4Stream { generated with len := 0 } = .next t ∧ t.err = .ok := ⟨_, rfl, rfl⟩
/-- Two parts that meet at the end of `DATA`, from a state that must restart. -/
theorem witness_SplitStreamEqualsOnePass :
    Memory.wf loaded.data ∧ (5#32).toNat + (5#32).toNat + (6#32).toNat ≤ loaded.cfg.dataSize ∧ (5#32).toNat + (5#32).toNat < 2 ^ 32 ∧
    (5#32).toNat + (6#32).toNat < 2 ^ 32 ∧ ({ loaded with keyLen := 5 } : State).keyLen ≠ 0 := by decide
theorem witness_StreamByteUsesItsKeystreamByte :
    let s : State := { loaded with keyLen := 5 }
    Memory.wf s.data ∧ ¬ outOfRange s ∧ s.keyLen ≠ 0 ∧ s.init = false ∧ (offset s).toNat + s.len.toNat < 2 ^ 64 :=
  ⟨by decide, inside, by decide, rfl, by decide⟩
/-- Its premise on an active stream, met by a stream of the machine's own key. -/
theorem witness_StreamByteOfAnActiveStream :
    let s : State := { generated with key := Vector.replicate 255 0x61#8 }
    s.init = true ∧ s.perm = prgaSkip s.pos.toNat (generatedBox s.key s.keyLen s.iv) := ⟨rfl, rfl⟩

end Sys2Proof.Tests
end

section
/-! PROOF. How a change of the next state passes through an outcome, and the independence of the hash unit and the cipher units
(00_scope.md R3). -/

namespace Sys2Proof.Machine

/-! ## Outcomes under a change of the next state -/

@[simp] theorem mapNext_next (f : State → State) (s : State) : mapNext f (.next s) = .next (f s) := rfl

theorem mapNext_ite (f : State → State) (p : Prop) [Decidable p] (a b : Host.Outcome State Fault Refusal) :
    mapNext f (if p then a else b) = if p then mapNext f a else mapNext f b := apply_ite (mapNext f) p a b

/-- The change passes through the `DATA` accesses of a command to the state the command completes with. -/
theorem mapNext_finish_bind {α : Type} (f : State → State) (e : Except Fault α) (g : α → State) :
    mapNext f (finish (e >>= fun x => .ok (g x))) = finish (e >>= fun x => .ok (f (g x))) := by
  cases e with
  | error r => rfl
  | ok x => rfl

/-! ## `MD5.HASH` and the cipher side

Here and below, once the change stands inside each branch, the two sides differ only in reads of fields that `withCipherOf` or
`withHashOf` keeps, so they agree by computation. -/

/-- `MD5.HASH` reads its buffer and the hash side and completes with an update of the hash side, on all three of its paths. -/
theorem execMd5Hash_withCipherOf (c s : State) :
    execMd5Hash (withCipherOf c s) = mapNext (withCipherOf c) (execMd5Hash s) := by
  simp only [execMd5Hash, mapNext_ite, mapNext_finish_bind, mapNext_next]
  rfl

/-! ## The cipher commands and the hash side -/

theorem ksa_withHashOf (c s : State) : ksa (withHashOf c s) = withHashOf c (ksa s) := rfl

theorem streamRestart_withHashOf (c s : State) : streamRestart (withHashOf c s) = withHashOf c (streamRestart s) := rfl

theorem xorOperandBuffer_withHashOf (c s : State) :
    xorOperandBuffer (withHashOf c s) = xorOperandBuffer s >>= fun t => .ok (withHashOf c t) := by
  simp only [xorOperandBuffer, bind_assoc]
  rfl

theorem execRc4SetKey_withHashOf (c s : State) :
    execRc4SetKey (withHashOf c s) = mapNext (withHashOf c) (execRc4SetKey s) := by
  simp only [execRc4SetKey, mapNext_ite, mapNext_finish_bind, mapNext_next]
  rfl

theorem execRc4Crypt_withHashOf (c s : State) :
    execRc4Crypt (withHashOf c s) = mapNext (withHashOf c) (execRc4Crypt s) := by
  have hbox : (if (withHashOf c s).init then withHashOf c s else ksa (withHashOf c s)) =
      withHashOf c (if s.init then s else ksa s) := by
    rw [ksa_withHashOf]; exact (apply_ite (withHashOf c) _ _ _).symm
  simp only [execRc4Crypt, mapNext_ite, mapNext_finish_bind, mapNext_next, hbox, xorOperandBuffer_withHashOf, bind_assoc]
  rfl

theorem execRc4Stream_withHashOf (c s : State) :
    execRc4Stream (withHashOf c s) = mapNext (withHashOf c) (execRc4Stream s) := by
  have hbox : (if streamRestarts (withHashOf c s) then streamRestart (withHashOf c s) else withHashOf c s) =
      withHashOf c (if streamRestarts s then streamRestart s else s) := by
    rw [streamRestart_withHashOf]; exact (apply_ite (withHashOf c) _ _ _).symm
  simp only [execRc4Stream, mapNext_ite, mapNext_finish_bind, mapNext_next, hbox, xorOperandBuffer_withHashOf, bind_assoc]
  rfl

/-- Settles O25: one commuting lemma per command; `RC4.SETIV` and `RC4.RESET` touch no `DATA` and commute by definition. -/
theorem hashAndCipherAreIndependent : Obligations.HashAndCipherAreIndependent := by
  refine ⟨execMd5Hash_withCipherOf, fun i c s hi => ?_⟩
  cases i with
  | md5Hash => exact absurd rfl hi
  | rc4SetKey => exact execRc4SetKey_withHashOf c s
  | rc4SetIv imm8 => rfl
  | rc4Crypt => exact execRc4Crypt_withHashOf c s
  | rc4Stream => exact execRc4Stream_withHashOf c s
  | rc4Reset => rfl

end Sys2Proof.Machine
end

section
/-! PROOF. The box is a permutation: the fill makes one, and every swap of the key schedule and of the keystream engine keeps it
(41_rc4_ksa.md R163 to R165, 42_rc4_prga.md R180, 10_state.md R34). -/

namespace Sys2Proof.Machine

theorem isPermutation_iff_bijective (t : Vector Byte 256) : IsPermutation t ↔ Function.Bijective (boxAt t) :=
  (Function.bijective_iff_existsUnique _).symm

/-- A swap permutes the entries, so it keeps a permutation. -/
theorem IsPermutation.boxSwap {t : Vector Byte 256} (h : IsPermutation t) (i j : Byte) : IsPermutation (boxSwap t i j) := by
  have entries : boxAt (Machine.boxSwap t i j) = boxAt t ∘ Equiv.swap j i := by
    funext k
    rw [boxAt_boxSwap, Function.comp_apply, Equiv.swap_apply_def]
    split_ifs <;> rfl
  rw [isPermutation_iff_bijective] at h ⊢
  rw [entries]
  exact h.comp (Equiv.swap j i).bijective

/-! ## The key schedule -/

/-- What `n` rounds of the fill have done: `IV` has advanced by `n` and the first `n` entries are written, whatever `BOX` held. -/
theorem ksaFill_rounds (box : Vector Byte 256) (iv : Byte) (n : Nat) (hn : n ≤ 256) :
    (forUp ksaFillStep n 0 (box, iv)).2 = iv + BitVec.ofNat 8 n ∧
      ∀ k : Byte, k.toNat < n → boxAt (forUp ksaFillStep n 0 (box, iv)).1 k = (iv + k) ^^^ 0xFF#8 := by
  induction n with
  | zero => exact ⟨by simp, fun k hk => absurd hk (Nat.not_lt_zero _)⟩
  | succ n ih =>
    obtain ⟨hiv, hbox⟩ := ih (by omega)
    rw [forUp_last, Nat.zero_add]
    refine ⟨?_, fun k hk => ?_⟩
    · rw [ksaFillStep, hiv, BitVec.ofNat_add, BitVec.add_assoc]
    · rw [ksaFillStep, boxAt_boxPut, hiv]
      by_cases last : k = BitVec.ofNat 8 n
      · rw [if_pos last, last]
      · have earlier : k.toNat ≠ n := fun h => last (by rw [← h, BitVec.ofNat_toNat, BitVec.setWidth_eq])
        rw [if_neg last, hbox k (by omega)]

/-- The box after `ksa_fill()`, in closed form (41_rc4_ksa.md R163). -/
theorem boxAt_ksaFill (box : Vector Byte 256) (iv k : Byte) : boxAt (ksaFill box iv).1 k = (iv + k) ^^^ 0xFF#8 :=
  (ksaFill_rounds box iv 256 (le_refl _)).2 k k.isLt

/-- `IV` after `ksa_fill()` is what it was: 256 increments wrap around (R163). -/
theorem ksaFill_iv (box : Vector Byte 256) (iv : Byte) : (ksaFill box iv).2 = iv := by
  rw [ksaFill, (ksaFill_rounds box iv 256 (le_refl _)).1]
  exact BitVec.add_zero iv

theorem ksaFill_isPermutation (box : Vector Byte 256) (iv : Byte) : IsPermutation (ksaFill box iv).1 := by
  have flip : Function.Involutive fun b : Byte => b ^^^ 0xFF#8 := fun b => by simp
  rw [isPermutation_iff_bijective, funext (boxAt_ksaFill box iv)]
  exact flip.bijective.comp (Equiv.addLeft iv).bijective

theorem IsPermutation.ksaMix {box : Vector Byte 256} (h : IsPermutation box) (key : Vector Byte 255) (keyLen : Word) :
    IsPermutation (ksaMix key keyLen box) := by
  unfold Machine.ksaMix
  exact forUp_invariant (fun _ (p : Vector Byte 256 × Byte) => IsPermutation p.1) h fun _ _ _ _ hp => hp.boxSwap _ _

theorem generatedBox_isPermutation (key : Vector Byte 255) (keyLen : Word) (iv : Byte) :
    IsPermutation (generatedBox key keyLen iv).box :=
  (ksaFill_isPermutation _ iv).ksaMix key keyLen

/-! ## The keystream engine -/

theorem IsPermutation.prgaAdvance {c : PermBox} (h : IsPermutation c.box) : IsPermutation (prgaAdvance c).box :=
  h.boxSwap _ _

theorem IsPermutation.prgaSkip {c : PermBox} (h : IsPermutation c.box) (n : Nat) : IsPermutation (prgaSkip n c).box :=
  forUp_invariant (fun _ (x : PermBox) => IsPermutation x.box) h fun _ _ _ _ hx => hx.prgaAdvance

/-- `A` moves by one with every advance step (42_rc4_prga.md R182). -/
theorem prgaSkip_a (n : Nat) (c : PermBox) : (prgaSkip n c).a = c.a + BitVec.ofNat 8 n := by
  induction n generalizing c with
  | zero => simp
  | succ n ih =>
    rw [prgaSkip_succ, ih, Nat.add_comm, BitVec.ofNat_add, ← BitVec.add_assoc]
    rfl

/-- Settles O17: by the invariant the box is a generated one advanced `n` steps, and `POS` is `n` modulo 2^64. -/
theorem initialisedBoxIsAPermutation : Obligations.InitialisedBoxIsAPermutation := by
  intro s hinv hinit
  obtain ⟨key, keyLen, iv, n, -, hpos, hperm⟩ := hinv.generated hinit
  rw [hperm]
  refine ⟨(generatedBox_isPermutation key keyLen iv).prgaSkip n, ?_⟩
  have ha : (generatedBox key keyLen iv).a = 0#8 := rfl
  rw [prgaSkip_a, ha, BitVec.zero_add, BitVec.toNat_ofNat, ← hpos]
  omega

end Sys2Proof.Machine
end

section
/-! PROOF. The host port by index, and `STATUS`: what a transaction leaves of it, and that a command's outcome does not depend on the
`ERR` before it (44_host_transactions.md R220, R222, R223; 10_state.md R25). -/

namespace Sys2Proof.Machine

/-! ## Register indices and steps -/

/-- An index selects the one register whose index it is (10_state.md R21). -/
theorem decodeReg_eq_some_iff {idx : BitVec 8} {r : Reg} : decodeReg idx = some r ↔ idx = regIndex r := by
  constructor
  · unfold decodeReg
    split <;> rintro ⟨⟩ <;> exact BitVec.eq_of_toNat_eq ‹_›
  · rintro rfl
    cases r <;> rfl

theorem step_nil {s : State} (h : s.inbox = []) : step s = .next s := by
  rw [step, h]

theorem step_cons {s : State} {op : HostOp} {rest : List HostOp} (h : s.inbox = op :: rest) :
    step s = hostStep op { s with inbox := rest } := by
  rw [step, h]

/-! ## `WR` to an index other than `CMD` -/

/-- What a `WR` to an index other than that of `CMD` makes of the state: the operand register of that index, if it is one, takes the
value (44_host_transactions.md R220), and nothing else changes (R222, R223). -/
def writeOperand (idx : BitVec 8) (v : Word) (s : State) : State :=
  { s with
    ptr := if idx = 0x02#8 then v else s.ptr
    len := if idx = 0x03#8 then v else s.len
    offLo := if idx = 0x04#8 then v else s.offLo
    offHi := if idx = 0x05#8 then v else s.offHi }

theorem writeOperand_of_not_operand {idx : BitVec 8} (hptr : idx ≠ 0x02#8) (hlen : idx ≠ 0x03#8) (hlo : idx ≠ 0x04#8)
    (hhi : idx ≠ 0x05#8) (v : Word) (s : State) : writeOperand idx v s = s := by
  rw [writeOperand, if_neg hptr, if_neg hlen, if_neg hlo, if_neg hhi]

theorem hostWr_of_ne_cmd {idx : BitVec 8} (h : idx ≠ 0x00#8) (v : Word) (s : State) :
    hostWr idx v s = .next (writeOperand idx v s) := by
  cases hidx : decodeReg idx with
  | none =>
    have reserved : ∀ r, idx ≠ regIndex r := fun r hr => by simp [decodeReg_eq_some_iff.mpr hr] at hidx
    rw [hostWr, hidx, writeOperand_of_not_operand (reserved .ptr) (reserved .len) (reserved .offLo) (reserved .offHi)]
  | some r =>
    obtain rfl := decodeReg_eq_some_iff.mp hidx
    cases r with
    | cmd => exact absurd rfl h
    | _ => rfl

@[simp] theorem statusWord_writeOperand (idx : BitVec 8) (v : Word) (s : State) :
    statusWord (writeOperand idx v s) = statusWord s := rfl

/-- An operand register reads as written. -/
theorem readReg_writeOperand_same {idx : BitVec 8} (h : idx ∈ [0x02#8, 0x03#8, 0x04#8, 0x05#8]) (v : Word) (s : State) :
    readReg idx (writeOperand idx v s) = v := by
  simp only [List.mem_cons, List.not_mem_nil, or_false] at h
  rcases h with rfl | rfl | rfl | rfl <;> rfl

/-- No two registers share storage: a register of another index reads as before (10_state.md R22). -/
theorem readReg_writeOperand_of_ne {idx other : BitVec 8} (h : other ≠ idx) (v : Word) (s : State) :
    readReg other (writeOperand idx v s) = readReg other s := by
  cases hother : decodeReg other with
  | none => simp only [readReg, hother]
  | some r =>
    obtain rfl := decodeReg_eq_some_iff.mp hother
    cases r with
    | ptr => exact if_neg h.symm
    | len => exact if_neg h.symm
    | offLo => exact if_neg h.symm
    | offHi => exact if_neg h.symm
    | _ => rfl

/-! ## `ERR` before a command

`raise e s` is `s` with another `ERR`. Every path of a command writes `ERR` and none reads it. -/

theorem ksa_raise (e : ErrCode) (s : State) : ksa (raise e s) = raise e (ksa s) := rfl

theorem streamRestart_raise (e : ErrCode) (s : State) : streamRestart (raise e s) = raise e (streamRestart s) := rfl

theorem xorOperandBuffer_raise (e : ErrCode) (s : State) :
    xorOperandBuffer (raise e s) = xorOperandBuffer s >>= fun t => .ok (raise e t) := by
  simp only [xorOperandBuffer, bind_assoc]
  rfl

theorem execRc4Crypt_raise (e : ErrCode) (s : State) : execRc4Crypt (raise e s) = execRc4Crypt s := by
  have hbox : (if (raise e s).init then raise e s else ksa (raise e s)) = raise e (if s.init then s else ksa s) := by
    rw [ksa_raise]; exact (apply_ite (raise e) _ _ _).symm
  simp only [execRc4Crypt, hbox, xorOperandBuffer_raise, bind_assoc]
  rfl

theorem execRc4Stream_raise (e : ErrCode) (s : State) : execRc4Stream (raise e s) = execRc4Stream s := by
  have hbox : (if streamRestarts (raise e s) then streamRestart (raise e s) else raise e s) =
      raise e (if streamRestarts s then streamRestart s else s) := by
    rw [streamRestart_raise]; exact (apply_ite (raise e) _ _ _).symm
  simp only [execRc4Stream, hbox, xorOperandBuffer_raise, bind_assoc]
  rfl

theorem exec_raise (i : Instr) (e : ErrCode) (s : State) : exec i (raise e s) = exec i s := by
  cases i with
  | md5Hash => rfl
  | rc4SetKey => rfl
  | rc4SetIv imm8 => rfl
  | rc4Crypt => exact execRc4Crypt_raise e s
  | rc4Stream => exact execRc4Stream_raise e s
  | rc4Reset => rfl

/-- A command, legal or not, does the same whatever `ERR` held before it (10_state.md R25, 60_exceptions.md R232). -/
theorem executeCommand_raise (w : Word) (e : ErrCode) (s : State) : executeCommand w (raise e s) = executeCommand w s := by
  unfold executeCommand
  cases decode w with
  | ok i => exact exec_raise i e s
  | error d => rfl

/-! ## The obligation -/

/-- The fields of `STATUS` (10_state.md R25, 60_exceptions.md R231). -/
theorem statusWord_fields (s : State) :
    (statusWord s).extractLsb' 0 1 = BitVec.ofBool s.init ∧ (statusWord s).extractLsb' 1 3 = 0#3 ∧
      (statusWord s).extractLsb' 8 24 = 0#24 ∧ (statusWord s).extractLsb' 4 4 = s.err.code := by
  unfold statusWord
  cases s.err <;> cases s.init <;> decide

/-- Settles O9: the fields of the word, a command whatever `ERR` was, and the two kinds of transaction that run no command. -/
theorem statusLayout : Obligations.StatusLayout := by
  refine ⟨fun s => ?_, fun w s t e h => (executeCommand_raise w e s).trans h, fun s t op rest hin hstep hop => ?_⟩
  · obtain ⟨hinit, hlow, hhigh, herr⟩ := statusWord_fields s
    exact ⟨hinit, hlow, hhigh, herr⟩
  · rw [step_cons hin] at hstep
    rcases hop with ⟨idx, v, hidx, rfl⟩ | ⟨idx, rfl⟩
    · rw [hostStep, hostWr_of_ne_cmd hidx] at hstep
      obtain rfl := Host.Outcome.next.inj hstep
      rfl
    · obtain rfl := Host.Outcome.next.inj hstep
      rfl

end Sys2Proof.Machine
end

section
/-! PROOF. The operand registers, `DATA_SIZE` and the host's side pass through every command unchanged, and which commands depend on
the operand registers (10_state.md R22, R39). -/

namespace Sys2Proof.Machine

/-! ## What every command keeps -/

/-- `s` with what a command leaves to the host as `c` has it: `DATA_SIZE`, the operand registers and the host's own lists. -/
def withHostSideOf (c s : State) : State :=
  { s with
    cfg := c.cfg, ptr := c.ptr, len := c.len, offLo := c.offLo, offHi := c.offHi, inbox := c.inbox, replies := c.replies }

theorem xorOperandBuffer_withHostSideOf (c s : State) (h : withHostSideOf c s = s) :
    (xorOperandBuffer s >>= fun t => .ok (withHostSideOf c t)) = xorOperandBuffer s := by
  rw [← h]
  simp only [xorOperandBuffer, bind_assoc]
  rfl

theorem execRc4Crypt_withHostSideOf (s : State) : mapNext (withHostSideOf s) (execRc4Crypt s) = execRc4Crypt s := by
  have hbox : withHostSideOf s (if s.init then s else ksa s) = if s.init then s else ksa s :=
    apply_ite (withHostSideOf s) _ _ _
  simp only [execRc4Crypt, mapNext_ite, mapNext_finish_bind, mapNext_next]
  rw [← xorOperandBuffer_withHostSideOf s _ hbox, bind_assoc, bind_assoc]
  rfl

theorem execRc4Stream_withHostSideOf (s : State) : mapNext (withHostSideOf s) (execRc4Stream s) = execRc4Stream s := by
  have hbox : withHostSideOf s (if streamRestarts s then streamRestart s else s) =
      if streamRestarts s then streamRestart s else s := apply_ite (withHostSideOf s) _ _ _
  simp only [execRc4Stream, mapNext_ite, mapNext_finish_bind, mapNext_next]
  rw [← xorOperandBuffer_withHostSideOf s _ hbox, bind_assoc, bind_assoc]
  rfl

/-- Whatever a command answers, it has the host's side of the state it started from. -/
theorem exec_withHostSideOf (i : Instr) (s : State) : mapNext (withHostSideOf s) (exec i s) = exec i s := by
  cases i with
  | md5Hash => simp only [exec, execMd5Hash, mapNext_ite, mapNext_finish_bind, mapNext_next]; rfl
  | rc4SetKey => simp only [exec, execRc4SetKey, mapNext_ite, mapNext_finish_bind, mapNext_next]; rfl
  | rc4SetIv imm8 => rfl
  | rc4Crypt => exact execRc4Crypt_withHostSideOf s
  | rc4Stream => exact execRc4Stream_withHostSideOf s
  | rc4Reset => rfl

theorem eq_withHostSideOf_of_exec {i : Instr} {s t : State} (h : exec i s = .next t) : t = withHostSideOf s t := by
  have kept := exec_withHostSideOf i s
  rw [h] at kept
  exact (Host.Outcome.next.inj kept).symm

/-! ## What every transaction keeps -/

/-- The operand registers of two states agree. -/
def SameOperands (s t : State) : Prop := t.ptr = s.ptr ∧ t.len = s.len ∧ t.offLo = s.offLo ∧ t.offHi = s.offHi

theorem finish_bind_next {α : Type} {e : Except Fault α} {g : α → State} {t : State}
    (h : finish (e >>= fun x => .ok (g x)) = .next t) : ∃ x, e = .ok x ∧ t = g x := by
  cases e with
  | error r => cases h
  | ok x => exact ⟨x, rfl, (Host.Outcome.next.inj h).symm⟩

theorem sameOperands_of_executeCommand {w : Word} {s t : State} (h : executeCommand w s = .next t) : SameOperands s t := by
  unfold executeCommand at h
  cases hw : decode w with
  | ok i =>
    rw [hw] at h
    rw [eq_withHostSideOf_of_exec h]
    exact ⟨rfl, rfl, rfl, rfl⟩
  | error d =>
    rw [hw] at h
    obtain rfl := Host.Outcome.next.inj h
    exact ⟨rfl, rfl, rfl, rfl⟩

/-- A transaction that is neither a `WR` to a register nor a power-on reset keeps the operand registers. -/
theorem sameOperands_of_hostStep {op : HostOp} {s t : State} (h : hostStep op s = .next t)
    (hwr : ∀ idx v, op = .wr idx v → idx = 0x00#8) (hpow : op ≠ .powerOn) : SameOperands s t := by
  cases op with
  | wr idx v =>
    obtain rfl := hwr idx v rfl
    exact sameOperands_of_executeCommand h
  | rd idx =>
    obtain rfl := Host.Outcome.next.inj h
    exact ⟨rfl, rfl, rfl, rfl⟩
  | putData addr v =>
    obtain ⟨m, -, rfl⟩ := finish_bind_next h
    exact ⟨rfl, rfl, rfl, rfl⟩
  | getData addr =>
    obtain ⟨b, -, rfl⟩ := finish_bind_next h
    exact ⟨rfl, rfl, rfl, rfl⟩
  | powerOn => exact absurd rfl hpow

/-! ## Commands that do not read `OFF` -/

/-- `s` with other values in `OFF_LO` and `OFF_HI`. -/
def withOffset (lo hi : Word) (s : State) : State := { s with offLo := lo, offHi := hi }

theorem ksa_withOffset (lo hi : Word) (s : State) : ksa (withOffset lo hi s) = withOffset lo hi (ksa s) := rfl

theorem xorOperandBuffer_withOffset (lo hi : Word) (s : State) :
    xorOperandBuffer (withOffset lo hi s) = xorOperandBuffer s >>= fun t => .ok (withOffset lo hi t) := by
  simp only [xorOperandBuffer, bind_assoc]
  rfl

theorem execRc4Crypt_withOffset (lo hi : Word) (s : State) :
    execRc4Crypt (withOffset lo hi s) = mapNext (withOffset lo hi) (execRc4Crypt s) := by
  have hbox : (if (withOffset lo hi s).init then withOffset lo hi s else ksa (withOffset lo hi s)) =
      withOffset lo hi (if s.init then s else ksa s) := by
    rw [ksa_withOffset]; exact (apply_ite (withOffset lo hi) _ _ _).symm
  simp only [execRc4Crypt, mapNext_ite, mapNext_finish_bind, mapNext_next, hbox, xorOperandBuffer_withOffset, bind_assoc]
  rfl

/-- Every command but `RC4.STREAM` does the same whatever `OFF` holds. -/
theorem exec_withOffset {i : Instr} (h : i ≠ .rc4Stream) (lo hi : Word) (s : State) :
    exec i (withOffset lo hi s) = mapNext (withOffset lo hi) (exec i s) := by
  cases i with
  | md5Hash => simp only [exec, execMd5Hash, mapNext_ite, mapNext_finish_bind, mapNext_next]; rfl
  | rc4SetKey => simp only [exec, execRc4SetKey, mapNext_ite, mapNext_finish_bind, mapNext_next]; rfl
  | rc4SetIv imm8 => rfl
  | rc4Crypt => exact execRc4Crypt_withOffset lo hi s
  | rc4Stream => exact absurd rfl h
  | rc4Reset => rfl

/-! ## The obligation -/

/-- A `WR` to an operand register is read back, and every other register reads as before. -/
theorem step_wr_operand {s : State} {idx : BitVec 8} {v : Word} {rest : List HostOp} (hin : s.inbox = .wr idx v :: rest)
    (hidx : idx ∈ [0x02#8, 0x03#8, 0x04#8, 0x05#8]) :
    ∃ t, step s = .next t ∧ readReg idx t = v ∧ ∀ other, other ≠ idx → readReg other t = readReg other s := by
  have hne : idx ≠ 0x00#8 := by rintro rfl; exact absurd hidx (by decide)
  refine ⟨writeOperand idx v { s with inbox := rest }, ?_, readReg_writeOperand_same hidx v _, fun other ho => ?_⟩
  · rw [step_cons hin, hostStep, hostWr_of_ne_cmd hne]
  · rw [readReg_writeOperand_of_ne ho]
    rfl

/-- A step other than a `WR` to a register and a power-on reset keeps the operand registers. -/
theorem sameOperands_of_step {s t : State} (h : step s = .next t)
    (hwr : ∀ idx v rest, s.inbox = .wr idx v :: rest → idx = 0x00#8) (hpow : ∀ rest, s.inbox ≠ .powerOn :: rest) :
    SameOperands s t := by
  cases hin : s.inbox with
  | nil =>
    rw [step_nil hin] at h
    obtain rfl := Host.Outcome.next.inj h
    exact ⟨rfl, rfl, rfl, rfl⟩
  | cons op rest =>
    rw [step_cons hin] at h
    exact sameOperands_of_hostStep (s := { s with inbox := rest }) h (fun idx v hop => hwr idx v rest (by rw [hin, hop]))
      fun hop => hpow rest (by rw [hin, hop])

/-- Settles O21: the lemmas above, one per clause; that `RC4.SETIV` and `RC4.RESET` read no operand register holds by their definitions. -/
theorem operandRegistersBelongToTheHost : Obligations.OperandRegistersBelongToTheHost := by
  refine ⟨fun s idx v rest hin hidx => step_wr_operand hin hidx, fun i s t h => ?_,
    fun s t h hwr hpow => sameOperands_of_step h hwr hpow, fun i s lo hi hstream => exec_withOffset hstream lo hi s,
    fun i s p n hi => ?_, fun s => rfl⟩
  · rw [eq_withHostSideOf_of_exec h]
    exact ⟨rfl, rfl, rfl, rfl, rfl, rfl, rfl⟩
  · rcases hi with rfl | ⟨v, rfl⟩ <;> rfl

end Sys2Proof.Machine
end

section
/-! PROOF. `RC4.SETKEY` copies the key, and no other command and no host access but power-on reset changes `KEY` or `KEYLEN`
(20_memory.md R72, 10_state.md R32). -/

namespace Sys2Proof.Machine

/-! ## The copy -/

theorem bufferInRange_eq_false_iff {s : State} : bufferInRange s = false ↔ outOfRange s := by
  simp [bufferInRange, inRange, outOfRange]

/-- `RC4.SETKEY` on a buffer inside `DATA` (41_rc4_ksa.md R161). -/
theorem execRc4SetKey_inside {s : State} (h : ¬ outOfRange s) :
    execRc4SetKey s = .next (succeed
      { s with
        key := storeKey 0 ((List.range (keyBytesUsed s.len)).map fun k => s.data.peek (bufStart s + k)) s.key
        keyLen := s.len }) := by
  have used : bufStart s + keyBytesUsed s.len ≤ s.cfg.dataSize := by
    unfold outOfRange at h
    unfold bufStart keyBytesUsed
    omega
  rw [execRc4SetKey, if_neg (mt bufferInRange_eq_false_iff.mp h), memReadBytes_inside _ _ _ _ used]
  rfl

/-- The key bytes in use after `RC4.SETKEY`'s copy are the bytes copied. -/
theorem storeKey_get_copied (f : Nat → Byte) {n : Nat} (key : Vector Byte 255) {k : Fin 255} (hk : k.val < n) :
    (storeKey 0 ((List.range n).map f) key).get k = f k.val := by
  rw [storeKey_get, if_pos (by simpa using hk)]
  simp [hk]

/-! ## What the other commands keep -/

/-- Two states hold the same key. -/
def SameKey (s t : State) : Prop := t.key = s.key ∧ t.keyLen = s.keyLen

/-- `xor_buffer()` changes `DATA` and the cipher state only. -/
theorem xorOperandBuffer_changes {s t : State} (h : xorOperandBuffer s = .ok t) : ∃ m c, t = { s with data := m, perm := c } := by
  unfold xorOperandBuffer at h
  cases hrun : xorBuffer s.cfg (bufLength s) (bufStart s) s.data s.perm with
  | error f => rw [hrun] at h; cases h
  | ok used => rw [hrun] at h; cases h; exact ⟨used.1, used.2, rfl⟩

/-- `MD5.HASH` leaves the cipher side as it was. -/
theorem eq_withCipherOf_of_execMd5Hash {s t : State} (h : execMd5Hash s = .next t) : t = withCipherOf s t := by
  have kept : execMd5Hash s = mapNext (withCipherOf s) (execMd5Hash s) := execMd5Hash_withCipherOf s s
  rw [h] at kept
  exact Host.Outcome.next.inj kept

/-- How a command that uses the cipher ends: an error (60_exceptions.md R233), or `xor_buffer()` run from the state `box` and then
`done`. `needsKey` says that the key schedule must run and there is no key. -/
inductive CipherEnd (needsKey : Prop) (box : State) (done : State → State) (s : State) : State → Prop
  | range (hout : outOfRange s) : CipherEnd needsKey box done s (raise .range s)
  | noKey (hin : ¬ outOfRange s) (hkey : needsKey) : CipherEnd needsKey box done s (raise .noKey s)
  | used (hin : ¬ outOfRange s) (hkey : ¬ needsKey) {u : State} (hrun : xorOperandBuffer box = .ok u) :
      CipherEnd needsKey box done s (done u)

theorem cipherEnd_of_next {needsKey : Prop} [Decidable needsKey] {box s t : State} {done : State → State}
    (h : (if bufferInRange s = false then .next (raise .range s) else if needsKey then .next (raise .noKey s)
      else finish (xorOperandBuffer box >>= fun u => .ok (done u))) = .next t) : CipherEnd needsKey box done s t := by
  by_cases hout : bufferInRange s = false
  · rw [if_pos hout] at h
    obtain rfl := Host.Outcome.next.inj h
    exact .range (bufferInRange_eq_false_iff.mp hout)
  · have hin : ¬ outOfRange s := mt bufferInRange_eq_false_iff.mpr hout
    rw [if_neg hout] at h
    by_cases hkey : needsKey
    · rw [if_pos hkey] at h
      obtain rfl := Host.Outcome.next.inj h
      exact .noKey hin hkey
    · rw [if_neg hkey] at h
      obtain ⟨u, hrun, rfl⟩ := finish_bind_next h
      exact .used hin hkey hrun

/-- `RC4.CRYPT` uses the box it found, or a fresh one (42_rc4_prga.md R186). -/
theorem execRc4Crypt_end {s t : State} (h : execRc4Crypt s = .next t) :
    CipherEnd (s.init = false ∧ s.keyLen = 0) (if s.init then s else ksa s) (fun u => succeed { u with init := false }) s t :=
  cipherEnd_of_next h

/-- `RC4.STREAM` uses the box it found, or that of a restart (43_rc4_stream.md R201). -/
theorem execRc4Stream_end {s t : State} (h : execRc4Stream s = .next t) :
    CipherEnd (streamRestarts s = true ∧ s.keyLen = 0) (if streamRestarts s then streamRestart s else s)
      (fun u => succeed { u with pos := u.pos + s.len.zeroExtend 64 }) s t :=
  cipherEnd_of_next h

/-- A cipher command keeps the key where its box and its last step do: `xor_buffer()` writes `DATA` and the cipher state only. -/
theorem CipherEnd.sameKey {needsKey : Prop} {box s t : State} {done : State → State} (h : CipherEnd needsKey box done s t)
    (hbox : SameKey s box) (hdone : ∀ u, SameKey s u → SameKey s (done u)) : SameKey s t := by
  cases h with
  | range => exact ⟨rfl, rfl⟩
  | noKey => exact ⟨rfl, rfl⟩
  | used _ _ hrun =>
    obtain ⟨m, c, rfl⟩ := xorOperandBuffer_changes hrun
    exact hdone _ hbox

theorem SameKey.ite {s a b : State} (p : Prop) [Decidable p] (ha : SameKey s a) (hb : SameKey s b) :
    SameKey s (if p then a else b) := by
  split
  · exact ha
  · exact hb

/-- Every command but `RC4.SETKEY` keeps the key (10_state.md R32). -/
theorem sameKey_of_exec {i : Instr} {s t : State} (hi : i ≠ .rc4SetKey) (h : exec i s = .next t) : SameKey s t := by
  cases i with
  | md5Hash =>
    rw [eq_withCipherOf_of_execMd5Hash h]
    exact ⟨rfl, rfl⟩
  | rc4SetKey => exact absurd rfl hi
  | rc4SetIv imm8 =>
    obtain rfl := Host.Outcome.next.inj h
    exact ⟨rfl, rfl⟩
  | rc4Crypt => exact (execRc4Crypt_end h).sameKey (.ite _ ⟨rfl, rfl⟩ ⟨rfl, rfl⟩) fun _ hu => hu
  | rc4Stream => exact (execRc4Stream_end h).sameKey (.ite _ ⟨rfl, rfl⟩ ⟨rfl, rfl⟩) fun _ hu => hu
  | rc4Reset =>
    obtain rfl := Host.Outcome.next.inj h
    exact ⟨rfl, rfl⟩

/-! ## What every transaction keeps -/

theorem sameKey_of_executeCommand {w : Word} {s t : State} (hw : decode w ≠ .ok .rc4SetKey) (h : executeCommand w s = .next t) :
    SameKey s t := by
  unfold executeCommand at h
  cases hd : decode w with
  | ok i =>
    rw [hd] at h hw
    exact sameKey_of_exec (fun hi => hw (congrArg _ hi)) h
  | error d =>
    rw [hd] at h
    obtain rfl := Host.Outcome.next.inj h
    exact ⟨rfl, rfl⟩

/-- Of the host's transactions only an `RC4.SETKEY` command and a power-on reset change the key; an access to `DATA` does not. -/
theorem sameKey_of_hostStep {op : HostOp} {s t : State} (h : hostStep op s = .next t)
    (hcmd : ∀ w, op = .wr 0x00#8 w → decode w ≠ .ok .rc4SetKey) (hpow : op ≠ .powerOn) : SameKey s t := by
  cases op with
  | wr idx v =>
    by_cases hidx : idx = 0x00#8
    · subst hidx
      exact sameKey_of_executeCommand (hcmd v rfl) h
    · rw [hostStep, hostWr_of_ne_cmd hidx] at h
      obtain rfl := Host.Outcome.next.inj h
      exact ⟨rfl, rfl⟩
  | rd idx =>
    obtain rfl := Host.Outcome.next.inj h
    exact ⟨rfl, rfl⟩
  | putData addr v =>
    obtain ⟨m, -, rfl⟩ := finish_bind_next h
    exact ⟨rfl, rfl⟩
  | getData addr =>
    obtain ⟨b, -, rfl⟩ := finish_bind_next h
    exact ⟨rfl, rfl⟩
  | powerOn => exact absurd rfl hpow

theorem sameKey_of_step {s t : State} (h : step s = .next t)
    (hcmd : ∀ w rest, s.inbox = .wr 0x00#8 w :: rest → decode w ≠ .ok .rc4SetKey) (hpow : ∀ rest, s.inbox ≠ .powerOn :: rest) :
    SameKey s t := by
  cases hin : s.inbox with
  | nil =>
    rw [step_nil hin] at h
    obtain rfl := Host.Outcome.next.inj h
    exact ⟨rfl, rfl⟩
  | cons op rest =>
    rw [step_cons hin] at h
    exact sameKey_of_hostStep (s := { s with inbox := rest }) h (fun w hop => hcmd w rest (by rw [hin, hop]))
      fun hop => hpow rest (by rw [hin, hop])

/-- Settles O27: `RC4.SETKEY` on a buffer inside `DATA` in closed form, and the key's frame over every other step. -/
theorem keyIsCopied : Obligations.KeyIsCopied := by
  refine ⟨fun s hs => ⟨_, execRc4SetKey_inside hs, rfl, rfl, fun k hk => ?_⟩, fun s t h hcmd hpow => sameKey_of_step h hcmd hpow⟩
  exact storeKey_get_copied (fun k => s.data.peek (bufStart s + k)) s.key hk

end Sys2Proof.Machine
end

section
/-! PROOF. The opcode map by fields of the word, the decoder against it, and the words outside it (30_encoding.md R91, R92, R95, R97). -/

namespace Sys2Proof.Machine

/-! ## A row of the map, field by field -/

theorem word_eq_iff_fields {w v : Word} :
    w = v ↔ rsvField w = rsvField v ∧ immField w = immField v ∧ opField w = opField v := by
  refine ⟨by rintro rfl; exact ⟨rfl, rfl, rfl⟩, fun ⟨hrsv, himm, hop⟩ => ?_⟩
  rw [← BitVec.toNat_inj] at *
  simp only [BitVec.extractLsb'_toNat, Nat.shiftRight_eq_div_pow] at hrsv himm hop
  omega

/-- Format Z: the command carries no operand in the word (R92). -/
def isFormatZ : Instr → Bool
  | .rc4SetIv _ => false
  | _ => true

/-- The operation code of each command (R95). -/
def opcode : Instr → Byte
  | .md5Hash => 0x01#8
  | .rc4SetKey => 0x10#8
  | .rc4SetIv _ => 0x11#8
  | .rc4Crypt => 0x12#8
  | .rc4Stream => 0x13#8
  | .rc4Reset => 0x14#8

/-- The row of `RC4.SETIV` does not depend on the immediate. -/
theorem opcodeRow_rc4SetIv (v : Byte) : opcodeRow (.rc4SetIv v) = opcodeRow (.rc4SetIv 0x00#8) := rfl

/-- Every row tests the reserved bits for 0 and the whole operation code. -/
theorem opcodeRow_fields (i : Instr) :
    rsvField (opcodeRow i).mask = BitVec.allOnes 16 ∧ rsvField (opcodeRow i).pattern = 0x0000#16 ∧
      opField (opcodeRow i).mask = BitVec.allOnes 8 ∧ opField (opcodeRow i).pattern = opcode i ∧ immField (opcodeRow i).pattern = 0x00#8 := by
  cases i with
  | rc4SetIv v => rw [opcodeRow_rc4SetIv]; exact ⟨rfl, rfl, rfl, rfl, rfl⟩
  | _ => exact ⟨rfl, rfl, rfl, rfl, rfl⟩

/-- A row tests the immediate bits for 0 exactly where its command is of format Z. -/
theorem and_immField_mask_eq_zero_iff (imm : Byte) (i : Instr) :
    imm &&& immField (opcodeRow i).mask = 0x00#8 ↔ (isFormatZ i = true → imm = 0x00#8) := by
  cases i with
  | rc4SetIv v =>
    have hmask : immField (opcodeRow (.rc4SetIv v)).mask = 0x00#8 := by rw [opcodeRow_rc4SetIv]; rfl
    simp [hmask, isFormatZ]
  | _ =>
    have hmask : immField 0xFFFFFFFF#32 = BitVec.allOnes 8 := rfl
    simp [opcodeRow, hmask, isFormatZ, -BitVec.reduceAllOnes]

theorem selects_row_iff (w : Word) (i : Instr) :
    w &&& (opcodeRow i).mask = (opcodeRow i).pattern ↔
      rsvField w = 0x0000#16 ∧ (isFormatZ i = true → immField w = 0x00#8) ∧ opField w = opcode i := by
  obtain ⟨hrsvMask, hrsv, hopMask, hop, himm⟩ := opcodeRow_fields i
  rw [word_eq_iff_fields, ← and_immField_mask_eq_zero_iff]
  simp only [BitVec.extractLsb'_and, hrsvMask, hrsv, hopMask, hop, himm, BitVec.and_allOnes]

theorem opcodeRow_mem (i : Instr) : opcodeRow i ∈ opcodeTable := by
  cases i <;> simp [opcodeTable, opcodeRow]

/-! ## The decoder -/

theorem decodeZ_eq_ok_iff {imm : Byte} {i j : Instr} : decodeZ imm i = .ok j ↔ imm = 0x00#8 ∧ i = j := by
  unfold decodeZ
  split_ifs with h <;> simp [h]

theorem fields_of_decodeZ {op imm : Byte} {i j : Instr} (h : decodeZ imm j = .ok i) (hz : isFormatZ j = true)
    (hop : op = opcode j) :
    op = opcode i ∧ (isFormatZ i = true → imm = 0x00#8) ∧ ∀ v, i = .rc4SetIv v → v = imm := by
  obtain ⟨himm, rfl⟩ := decodeZ_eq_ok_iff.mp h
  exact ⟨hop, fun _ => himm, by rintro v rfl; cases hz⟩

/-- The operation code is that of the command's row, and the immediate is 0 or the command's operand. -/
theorem decodeOp_eq_ok_iff {op imm : Byte} {i : Instr} :
    decodeOp op imm = .ok i ↔
      op = opcode i ∧ (isFormatZ i = true → imm = 0x00#8) ∧ ∀ v, i = .rc4SetIv v → v = imm := by
  constructor
  · intro h
    unfold decodeOp at h
    split_ifs at h with hop hop hop hop hop hop
    · exact fields_of_decodeZ h rfl hop
    · exact fields_of_decodeZ h rfl hop
    · obtain rfl := Except.ok.inj h
      exact ⟨hop, nofun, fun v hv => (Instr.rc4SetIv.inj hv).symm⟩
    · exact fields_of_decodeZ h rfl hop
    · exact fields_of_decodeZ h rfl hop
    · exact fields_of_decodeZ h rfl hop
  · rintro ⟨rfl, hz, hiv⟩
    cases i with
    | rc4SetIv v => rw [hiv v rfl]; rfl
    | _ => rw [hz rfl]; rfl

theorem decode_eq_ok_iff {w : Word} {i : Instr} :
    decode w = .ok i ↔ rsvField w = 0x0000#16 ∧ decodeOp (opField w) (immField w) = .ok i := by
  unfold decode
  split_ifs with h <;> simp [h]

/-- A word decodes to a command exactly when it selects the command's row and carries the command's operand. -/
theorem decode_eq_ok_iff_selects_row {w : Word} {i : Instr} :
    decode w = .ok i ↔ w &&& (opcodeRow i).mask = (opcodeRow i).pattern ∧ ∀ v, i = .rc4SetIv v → v = immField w := by
  rw [decode_eq_ok_iff, decodeOp_eq_ok_iff, selects_row_iff]
  tauto

/-- Settles O1: the decoder's tests and a row's mask and pattern are the same tests on the fields of the word. -/
theorem decodeFollowsTheOpcodeMap : Obligations.DecodeFollowsTheOpcodeMap :=
  ⟨rfl, opcodeRow_mem, fun _ _ => decode_eq_ok_iff_selects_row⟩

/-! ## Words outside the map -/

theorem decode_eq_error_of_selects_no_row {w : Word} (h : ∀ row ∈ opcodeTable, w &&& row.mask ≠ row.pattern) :
    ∃ e, decode w = .error e := by
  cases hw : decode w with
  | error e => exact ⟨e, rfl⟩
  | ok i => exact absurd (decode_eq_ok_iff_selects_row.mp hw).1 (h _ (opcodeRow_mem i))

/-- No effect but `ERR_ILLEGAL`. -/
theorem executeCommand_of_selects_no_row {w : Word} (h : ∀ row ∈ opcodeTable, w &&& row.mask ≠ row.pattern) (s : State) :
    executeCommand w s = .next (raise .illegal s) := by
  obtain ⟨e, he⟩ := decode_eq_error_of_selects_no_row h
  rw [executeCommand, he]

/-- The words inside the map, by their fields. -/
theorem selects_some_row_iff (w : Word) :
    (∃ row ∈ opcodeTable, w &&& row.mask = row.pattern) ↔
      rsvField w = 0x0000#16 ∧
        (opField w = 0x11#8 ∨ immField w = 0x00#8 ∧ opField w ∈ [0x01#8, 0x10#8, 0x12#8, 0x13#8, 0x14#8]) := by
  simp only [opcodeTable, List.mem_cons, List.not_mem_nil, or_false, exists_eq_or_imp, exists_eq_left, selects_row_iff]
  simp only [isFormatZ, opcode, true_imp_iff, Bool.false_eq_true, false_imp_iff, true_and]
  tauto

/-- The operation codes outside the map. -/
theorem not_mem_opcodes_iff (op : Byte) :
    op ∉ [0x01#8, 0x10#8, 0x11#8, 0x12#8, 0x13#8, 0x14#8] ↔
      op = 0x00#8 ∨ (0x02#8 ≤ op ∧ op ≤ 0x0F#8) ∨ (0x15#8 ≤ op ∧ op ≤ 0xFF#8) := by
  simp only [List.mem_cons, List.not_mem_nil, or_false]
  bv_omega

/-- Settles O3: the decoder answers no command, so the step raises; the listed cases are the complement of the fields a row admits. -/
theorem wordsOutsideTheMapAreIllegal : Obligations.WordsOutsideTheMapAreIllegal := by
  refine ⟨fun s w rest hin hw => ?_, fun w => ?_⟩
  · exact (step_cons hin).trans (executeCommand_of_selects_no_row hw _)
  · have hmap := not_congr (selects_some_row_iff w)
    have hop := not_mem_opcodes_iff (opField w)
    push Not at hmap
    rw [hmap]
    simp only [List.mem_cons, List.not_mem_nil, or_false] at hop ⊢
    grind

end Sys2Proof.Machine
end

section
/-! PROOF. A sequence of operand writes followed by a command word, and the pseudo-instructions that stand for one (30_encoding.md R90,
R101). -/

namespace Sys2Proof.Machine

/-! ## The encoder's word runs its command -/

theorem immField_encode_rc4SetIv (v : Byte) : immField (encode (.rc4SetIv v)) = v := by
  ext k hk
  simp only [encode, BitVec.getElem_extractLsb']
  interval_cases k <;> simp

theorem decode_encode (i : Instr) : decode (encode i) = .ok i := by
  cases i with
  | rc4SetIv v =>
    refine decode_eq_ok_iff_selects_row.mpr ⟨Laws.EncodesIntoItsRow.rc4SetIv v, fun u hu => ?_⟩
    rw [immField_encode_rc4SetIv, Instr.rc4SetIv.inj hu]
  | _ => rfl

theorem executeCommand_encode (i : Instr) (s : State) : executeCommand (encode i) s = exec i s := by
  rw [executeCommand, decode_encode]

theorem step_encoded_command {s : State} {i : Instr} {rest : List HostOp} (hin : s.inbox = .wr 0x00#8 (encode i) :: rest) :
    step s = exec i { s with inbox := rest } :=
  (step_cons hin).trans (executeCommand_encode i _)

/-! ## Operand writes, then a command -/

theorem run_succ_of_step {s t : State} (h : step s = .next t) (k : Nat) :
    Host.Core.run Sys2Proof.core (k + 1) s = Host.Core.run Sys2Proof.core k t := by
  have hcore : Host.Core.step Sys2Proof.core s = .next t := h
  simp only [Host.Core.run, hcore]

theorem run_one (s : State) : Host.Core.run Sys2Proof.core 1 s = step s := by
  show Host.Core.run Sys2Proof.core (0 + 1) s = Host.Core.step Sys2Proof.core s
  simp only [Host.Core.run]
  cases Host.Core.step Sys2Proof.core s <;> rfl

/-- The operand registers as a list of `WR` leaves them, the first written first. -/
def writeOperands (ws : List (BitVec 8 × Word)) (s : State) : State := ws.foldl (fun t w => writeOperand w.1 w.2 t) s

/-- Operand writes followed by a command word: the command runs on the state the writes leave. -/
theorem run_operandWrites_command (ws : List (BitVec 8 × Word)) (hws : ∀ w ∈ ws, w.1 ≠ 0x00#8) (i : Instr) (rest : List HostOp)
    (s : State) (hin : s.inbox = ws.map (fun w => .wr w.1 w.2) ++ .wr 0x00#8 (encode i) :: rest) :
    Host.Core.run Sys2Proof.core (ws.length + 1) s = exec i (writeOperands ws { s with inbox := rest }) := by
  induction ws generalizing s with
  | nil => exact (run_one s).trans (step_encoded_command hin)
  | cons w ws ih =>
    have hstep := step_cons hin
    rw [hostStep, hostWr_of_ne_cmd (hws w (by simp))] at hstep
    exact (run_succ_of_step hstep _).trans (ih (fun v hv => hws v (by simp [hv])) _ rfl)

/-! ## The offset of `stream`, word by word -/

theorem offset_low_word (off : Nat) : BitVec.ofNat 32 (off % 2 ^ 32) = (BitVec.ofNat 64 off).extractLsb' 0 32 := by
  apply BitVec.eq_of_toNat_eq
  simp only [BitVec.toNat_ofNat, BitVec.extractLsb'_toNat, Nat.shiftRight_eq_div_pow]
  omega

theorem offset_high_word {off : Nat} (h : off < 2 ^ 64) :
    BitVec.ofNat 32 (off / 2 ^ 32) = (BitVec.ofNat 64 off).extractLsb' 32 32 := by
  apply BitVec.eq_of_toNat_eq
  simp only [BitVec.toNat_ofNat, BitVec.extractLsb'_toNat, Nat.shiftRight_eq_div_pow]
  omega

/-! ## The obligation -/

/-- The shape of `hash`, `setkey` and `crypt`: `wr PTR, p` ; `wr LEN, n` ; the command (R101). -/
theorem run_ptr_len_command (i : Instr) (p n : Word) {s : State} {rest : List HostOp}
    (hin : s.inbox = .wr 0x02#8 p :: .wr 0x03#8 n :: .wr 0x00#8 (encode i) :: rest) :
    Host.Core.run Sys2Proof.core 3 s = exec i { s with inbox := rest, ptr := p, len := n } :=
  run_operandWrites_command [(0x02#8, p), (0x03#8, n)] (by simp) i rest s hin

/-- Settles O13: the expansions hold by definition; a run of operand writes leaves the operands, and the command runs on those. -/
theorem pseudoInstructionsExpand : Obligations.PseudoInstructionsExpand := by
  refine ⟨fun p n off => ⟨rfl, rfl, rfl, rfl⟩, fun s rest p n off _ _ hoff => ⟨fun hin => ?_, fun hin => ?_, fun hin => ?_,
    fun hin => ?_⟩⟩
  · exact run_ptr_len_command .md5Hash _ _ hin
  · exact run_ptr_len_command .rc4SetKey _ _ hin
  · exact run_ptr_len_command .rc4Crypt _ _ hin
  · rw [withOperands, ← offset_low_word, ← offset_high_word hoff]
    exact run_operandWrites_command [(0x02#8, _), (0x03#8, _), (0x04#8, _), (0x05#8, _)] (by simp) .rc4Stream rest s hin

end Sys2Proof.Machine
end

section
/-! PROOF. The steps of the MD5 compression function: the round functions, the two tables by round, and the loop
(40_md5.md R122 to R127). -/

namespace Sys2Proof.Machine

/-! ## The function of a step -/

theorem md5F_of_round1 {i : Nat} (h : i / 16 = 0) : md5F i = md5F1 := by
  funext b c d
  simp only [md5F, h]

theorem md5F_of_round2 {i : Nat} (h : i / 16 = 1) : md5F i = md5F2 := by
  funext b c d
  simp only [md5F, h]

theorem md5F_of_round3 {i : Nat} (h : i / 16 = 2) : md5F i = md5F3 := by
  funext b c d
  simp only [md5F, h]

theorem md5F_of_round4 {i : Nat} (h : i / 16 = 3) : md5F i = md5F4 := by
  funext b c d
  simp only [md5F, h]

/-- `F1` chooses bit by bit: `c` where `b` is set, `d` elsewhere. -/
theorem md5F1_eq_choose (b c d : Word) : md5F1 b c d = (b &&& c) ||| (~~~b &&& d) := by
  have bit : ∀ x y z : Bool, (z ^^ (x && (y ^^ z))) = (x && y || !x && z) := by decide
  ext k hk
  simp only [md5F1, BitVec.getElem_xor, BitVec.getElem_and, BitVec.getElem_or, BitVec.getElem_not, bit]

/-- `F2` is `F1` with the choosing word last. -/
theorem md5F2_eq_choose (b c d : Word) : md5F2 b c d = (b &&& d) ||| (c &&& ~~~d) := by
  have turned : md5F2 b c d = md5F1 d b c := rfl
  rw [turned, md5F1_eq_choose, BitVec.and_comm d b, BitVec.and_comm (~~~d) c]

/-- Settles O28: the function of each round, and the two as choices. -/
theorem roundFunctions : Obligations.RoundFunctions := by
  refine ⟨fun i b c d => ⟨fun hi => ?_, fun lo hi => ?_, fun lo hi => ?_, fun lo hi => ?_⟩,
    fun b c d => ⟨md5F1_eq_choose b c d, md5F2_eq_choose b c d⟩⟩
  · rw [md5F_of_round1 (by omega), md5F1]
  · rw [md5F_of_round2 (by omega), md5F2]
  · rw [md5F_of_round3 (by omega), md5F3]
  · rw [md5F_of_round4 (by omega), md5F4]

/-! ## The tables -/

theorem md5S_bounds (i : Nat) : 4 ≤ md5S i ∧ md5S i ≤ 23 := by
  unfold md5S
  split <;> decide

theorem md5G_of_round1 {i : Nat} (h : i / 16 = 0) : md5G i = i % 16 := by
  simp only [md5G, h]

theorem md5G_of_round2 {i : Nat} (h : i / 16 = 1) : md5G i = (5 * i + 1) % 16 := by
  simp only [md5G, h]

theorem md5G_of_round3 {i : Nat} (h : i / 16 = 2) : md5G i = (3 * i + 5) % 16 := by
  simp only [md5G, h]

theorem md5G_of_round4 {i : Nat} (h : i / 16 = 3) : md5G i = (7 * i) % 16 := by
  simp only [md5G, h]

/-- The step of round `r + 1` that uses message word `t`: the order of each round is an affine map modulo 16 (40_md5.md R125), and
13, 11 and 7 are the inverses of its factors 5, 3 and 7. -/
def stepUsing (r : Fin 4) (t : Fin 16) : Fin 64 :=
  match r with
  | 0 => ⟨t.val, by omega⟩
  | 1 => ⟨16 + 13 * (t.val + 15) % 16, by omega⟩
  | 2 => ⟨32 + 11 * (t.val + 11) % 16, by omega⟩
  | 3 => ⟨48 + 7 * t.val % 16, by omega⟩

/-- Each round uses every word in exactly one step. -/
theorem uses_word_iff (r : Fin 4) (t : Fin 16) (j : Fin 64) :
    (j.val / 16 = r.val ∧ md5G j.val = t.val) ↔ j = stepUsing r t := by
  rw [Fin.ext_iff]
  match r with
  | 0 =>
    show (j.val / 16 = 0 ∧ _) ↔ j.val = t.val
    rw [and_congr_right fun hr => by rw [md5G_of_round1 hr]]
    omega
  | 1 =>
    show (j.val / 16 = 1 ∧ _) ↔ j.val = 16 + 13 * (t.val + 15) % 16
    rw [and_congr_right fun hr => by rw [md5G_of_round2 hr]]
    omega
  | 2 =>
    show (j.val / 16 = 2 ∧ _) ↔ j.val = 32 + 11 * (t.val + 11) % 16
    rw [and_congr_right fun hr => by rw [md5G_of_round3 hr]]
    omega
  | 3 =>
    show (j.val / 16 = 3 ∧ _) ↔ j.val = 48 + 7 * t.val % 16
    rw [and_congr_right fun hr => by rw [md5G_of_round4 hr]]
    omega

/-- Settles O29: the tables by evaluation; the step that uses a word is the one the inverse of the round's order gives. -/
theorem stepTables : Obligations.StepTables := by
  refine ⟨by decide, md5S_bounds, by decide, fun r t => ⟨stepUsing r t, (uses_word_iff r t _).mpr rfl, fun j => ?_⟩⟩
  exact (uses_word_iff r t j).mp

/-! ## The compression function -/

theorem md5S_lt (i : Nat) : md5S i < 32 := by
  have := md5S_bounds i
  omega

/-- Inside its range `rotl32` is the library's rotation. -/
theorem rotl32_eq_rotateLeft (x : Word) {n : Nat} (h : n < 32) : rotl32 x n = x.rotateLeft n :=
  (BitVec.rotateLeft_eq_rotateLeftAux_of_lt h).symm

/-- The working registers before step `i` of a compression from `h`. -/
def registersBefore (h : Quad) (blk : Vector Byte 64) (i : Nat) : Quad := forUp (md5Step blk) i 0 h

theorem registersBefore_succ (h : Quad) (blk : Vector Byte 64) (i : Nat) :
    registersBefore h blk (i + 1) = md5Step blk i (registersBefore h blk i) := by
  rw [registersBefore, forUp_last, Nat.zero_add, registersBefore]

/-- R127's values for a block of zero bytes. -/
theorem md5Compress_zeros :
    md5Compress md5InitV (Vector.replicate 64 0x00#8) = ⟨0x031f1dac#32, 0x6ea58ed0#32, 0x1fab67b7#32, 0x74317791#32⟩ := by
  decide +kernel

/-- Settles O30: the loop's own intermediate registers meet the recurrence; the zero block by evaluation. -/
theorem compressionIsSixtyFourSteps : Obligations.CompressionIsSixtyFourSteps := by
  refine ⟨fun h blk => ⟨registersBefore h blk, rfl, fun i _ => ?_, rfl⟩, md5Compress_zeros⟩
  rw [registersBefore_succ]
  exact ⟨rfl, rfl, rfl, _, rfl, by rw [← rotl32_eq_rotateLeft _ (md5S_lt i)]; rfl⟩

end Sys2Proof.Machine
end

section
/-! PROOF. What absorbing a message leaves in HashState, and the blocks `md5_final` compresses (40_md5.md R129, R130). -/

namespace Sys2Proof.Machine

/-! ## A byte written to `BUF`, and the blocks of a message one byte longer -/

theorem buf_get_set (buf : Vector Byte 64) (i k : Fin 64) (v : Byte) :
    (buf.set i v).get k = if k.val = i.val then v else buf.get k := by
  have entry : ∀ w : Vector Byte 64, w.get k = w[k.val] := fun _ => rfl
  rw [entry, entry, Vector.getElem_set]
  exact if_congr eq_comm rfl rfl

theorem blocksOf_length (bytes : List Byte) : (blocksOf bytes).length = bytes.length / 64 := by
  simp [blocksOf]

/-- A block is the one whose bytes it has. -/
theorem eq_blockOf {bytes : List Byte} {q : Nat} {blk : Vector Byte 64}
    (h : ∀ k : Fin 64, blk.get k = bytes.getD (64 * q + k.val) 0x00#8) : blk = blockOf bytes q := by
  apply Vector.ext
  intro k hk
  show blk.get ⟨k, hk⟩ = (blockOf bytes q).get ⟨k, hk⟩
  rw [h, blockOf_get]

/-! ## Absorption -/

theorem md5AbsorbByte_of_room {hs : HashState} (v : Byte) (room : hs.bufLen.val + 1 < 64) :
    md5AbsorbByte hs v = ⟨hs.h, hs.count + 1, hs.buf.set hs.bufLen v, ⟨hs.bufLen.val + 1, room⟩⟩ := by
  rw [md5AbsorbByte, dif_pos room]

theorem md5AbsorbByte_of_full {hs : HashState} (v : Byte) (full : ¬ hs.bufLen.val + 1 < 64) :
    md5AbsorbByte hs v = ⟨md5Compress hs.h (hs.buf.set hs.bufLen v), hs.count + 1, hs.buf.set hs.bufLen v, 0⟩ := by
  rw [md5AbsorbByte, dif_neg full]

/-- What HashState holds once `msg` has been absorbed since `md5_init` (40_md5.md R129). -/
structure Absorbed (msg : List Byte) (hs : HashState) : Prop where
  count : hs.count = BitVec.ofNat 64 msg.length
  bufLen : hs.bufLen.val = msg.length % 64
  h : hs.h = (blocksOf msg).foldl md5Compress md5InitV
  pending : ∀ k : Fin 64, k.val < msg.length % 64 → hs.buf.get k = msg.getD (64 * (msg.length / 64) + k.val) 0x00#8

theorem absorbed_md5Init (hs : HashState) : Absorbed [] (md5Init hs) :=
  ⟨rfl, rfl, rfl, fun _ hk => absurd hk (Nat.not_lt_zero _)⟩

/-- The next byte joins the pending ones. -/
theorem Absorbed.get_set {msg : List Byte} {hs : HashState} (h : Absorbed msg hs) (v : Byte) {k : Fin 64}
    (hk : k.val ≤ msg.length % 64) :
    (hs.buf.set hs.bufLen v).get k = (msg ++ [v]).getD (64 * (msg.length / 64) + k.val) 0x00#8 := by
  rw [buf_get_set, h.bufLen]
  by_cases new : k.val = msg.length % 64
  · have position : 64 * (msg.length / 64) + k.val = msg.length := by omega
    rw [if_pos new, position, List.getD_append_right _ _ _ _ (le_refl _), Nat.sub_self]
    rfl
  · rw [if_neg new, h.pending k (by omega), List.getD_append _ _ _ _ (by omega)]

theorem Absorbed.absorbByte {msg : List Byte} {hs : HashState} (h : Absorbed msg hs) (v : Byte) :
    Absorbed (msg ++ [v]) (md5AbsorbByte hs v) := by
  have length : (msg ++ [v]).length = msg.length + 1 := by simp
  have count : hs.count + 1 = BitVec.ofNat 64 (msg ++ [v]).length := by
    rw [h.count, length, BitVec.ofNat_add]
    rfl
  have bufLen := h.bufLen
  by_cases room : hs.bufLen.val + 1 < 64
  · have sameBlock : (msg ++ [v]).length / 64 = msg.length / 64 := by omega
    rw [md5AbsorbByte_of_room v room]
    refine ⟨count, ?_, ?_, fun k hk => ?_⟩
    · show hs.bufLen.val + 1 = _
      omega
    · rw [blocksOf_append msg [v] 0 sameBlock, List.range_zero, List.map_nil, List.append_nil]
      exact h.h
    · rw [sameBlock]
      exact h.get_set v (by omega)
  · have nextBlock : (msg ++ [v]).length / 64 = msg.length / 64 + 1 := by omega
    have block : hs.buf.set hs.bufLen v = blockOf (msg ++ [v]) (msg.length / 64) :=
      eq_blockOf fun k => h.get_set v (by omega)
    rw [md5AbsorbByte_of_full v room]
    refine ⟨count, ?_, ?_, fun k hk => ?_⟩
    · show 0 = _
      omega
    · rw [blocksOf_append msg [v] 1 nextBlock, List.foldl_append, ← h.h, block]
      rfl
    · omega

/-- The invariant of absorption, byte by byte. -/
theorem absorbed_md5Absorb (hs : HashState) (msg : List Byte) : Absorbed msg (md5Absorb (md5Init hs) msg) := by
  induction msg using List.reverseRecOn with
  | nil => exact absorbed_md5Init hs
  | append_singleton msg v ih =>
    rw [md5Absorb, List.foldl_append]
    exact ih.absorbByte v

/-- Settles O31: the invariant of absorption. -/
theorem absorptionBuffersTheRemainder : Obligations.AbsorptionBuffersTheRemainder := by
  intro hs msg
  obtain ⟨count, bufLen, h, pending⟩ := absorbed_md5Absorb hs msg
  exact ⟨count, bufLen, h, blocksOf_length msg, pending⟩

/-! ## The padding of `md5_final` -/

/-- `BUF` with the mark 0x80 after the pending bytes and zeros from there up to `hi`. -/
theorem zeroFill_marked_get (hs : HashState) (hi : Nat) {k : Fin 64} (hk : k.val < hi) :
    (zeroFill (hs.bufLen.val + 1) hi (hs.buf.set hs.bufLen 0x80#8)).get k =
      if k.val < hs.bufLen.val then hs.buf.get k else if k.val = hs.bufLen.val then 0x80#8 else 0x00#8 := by
  rw [zeroFill_get, buf_get_set]
  rcases Nat.lt_trichotomy k.val hs.bufLen.val with pending | mark | above
  · rw [if_neg (by omega), if_neg (by omega), if_pos pending]
  · rw [if_neg (by omega), if_pos mark, if_neg (by omega), if_pos mark]
  · rw [if_pos (by omega), if_neg (by omega), if_neg (by omega)]

theorem md5Final_of_le {hs : HashState} (h : hs.bufLen.val ≤ 55) :
    md5Final hs =
      let last := putLength (hs.count * 8) (zeroFill (hs.bufLen.val + 1) 56 (hs.buf.set hs.bufLen 0x80#8))
      ⟨md5Compress hs.h last, hs.count, last, 0⟩ := by
  rw [md5Final, if_neg (by omega)]

theorem md5Final_of_ge {hs : HashState} (h : 56 ≤ hs.bufLen.val) :
    md5Final hs =
      let first := zeroFill (hs.bufLen.val + 1) 64 (hs.buf.set hs.bufLen 0x80#8)
      let last := putLength (hs.count * 8) (zeroFill 0 56 first)
      ⟨md5Compress (md5Compress hs.h first) last, hs.count, last, 0⟩ := by
  rw [md5Final, if_pos h]

theorem md5Final_bufLen_count (hs : HashState) : (md5Final hs).bufLen = 0 ∧ (md5Final hs).count = hs.count := by
  rcases Nat.lt_or_ge 55 hs.bufLen.val with h | h
  · rw [md5Final_of_ge h]
    exact ⟨rfl, rfl⟩
  · rw [md5Final_of_le h]
    exact ⟨rfl, rfl⟩

/-- Settles O55: the one block or the two that `md5_final` compresses, byte by byte. -/
theorem finalPadsTheRemainder : Obligations.FinalPadsTheRemainder := by
  refine fun hs => ⟨fun h => ⟨_, by rw [md5Final_of_le h], fun k => ?_⟩,
    fun h => ⟨_, _, by rw [md5Final_of_ge h], fun k => zeroFill_marked_get hs 64 k.isLt, fun k => ?_⟩, md5Final_bufLen_count hs⟩
  · rw [putLength_get]
    by_cases hk : k.val < 56
    · simp only [if_neg (Nat.not_le.mpr hk), if_pos hk, zeroFill_marked_get hs 56 hk]
    · rw [if_pos (by omega), if_neg (by omega), if_neg (by omega), if_neg hk, ser64]
  · rw [putLength_get]
    by_cases hk : k.val < 56
    · rw [if_neg (by omega), if_pos hk, zeroFill_get, if_pos ⟨Nat.zero_le _, hk⟩]
    · rw [if_pos (by omega), if_neg hk, ser64]

end Sys2Proof.Machine
end

section
/-! PROOF. The blocks `md5_final` compresses are the last blocks of the padded message (40_md5.md R130, R131). -/

namespace Sys2Proof.Machine

/-! ## The padded message, byte by byte -/

theorem ser64_bytes_getD (v : Dword) {k : Nat} (h : k < 8) : ((List.range 8).map (ser64 v)).getD k 0x00#8 = ser64 v k := by
  simp [h]

/-- The padding of a message of `n` bytes, byte by byte: the mark, zeros, the bit length. -/
theorem md5Padding_getD (n : Nat) {i : Nat} (hi : i < 9 + (119 - n % 64) % 64) :
    (md5Padding n).getD i 0x00#8 =
      if i = 0 then 0x80#8
      else if i ≤ (119 - n % 64) % 64 then 0x00#8
      else ser64 (BitVec.ofNat 64 (8 * n)) (i - 1 - (119 - n % 64) % 64) := by
  cases i with
  | zero => rfl
  | succ i =>
    rw [md5Padding, List.cons_append, List.getD_cons_succ, if_neg (Nat.succ_ne_zero i)]
    by_cases zero : i < (119 - n % 64) % 64
    · rw [if_pos (by omega), List.getD_append _ _ _ _ (by simpa using zero), List.getD_replicate _ zero]
    · rw [if_neg (by omega), List.getD_append_right _ _ _ _ (by simpa using zero), List.length_replicate,
        ser64_bytes_getD _ (by omega), Nat.add_sub_cancel]

/-- The padded message (40_md5.md R130): the message, the mark, zeros up to the last eight bytes, the bit length. -/
theorem md5Pad_getD (msg : List Byte) {i : Nat} (hi : i < (md5Pad msg).length) :
    (md5Pad msg).getD i 0x00#8 =
      if i < msg.length then msg.getD i 0x00#8
      else if i = msg.length then 0x80#8
      else if i + 8 < (md5Pad msg).length then 0x00#8
      else ser64 (BitVec.ofNat 64 (8 * msg.length)) (i + 8 - (md5Pad msg).length) := by
  rw [md5Pad_length] at hi ⊢
  by_cases message : i < msg.length
  · rw [if_pos message, md5Pad, List.getD_append _ _ _ _ message]
  · have position : i - msg.length - 1 - (119 - msg.length % 64) % 64 =
        i + 8 - (msg.length + 9 + (119 - msg.length % 64) % 64) := by omega
    rw [if_neg message, md5Pad, List.getD_append_right _ _ _ _ (by omega), md5Padding_getD _ (by omega), position]
    exact if_congr (by omega) rfl (if_congr (by omega) rfl rfl)

/-! ## The last blocks -/

theorem Absorbed.bits {msg : List Byte} {hs : HashState} (h : Absorbed msg hs) :
    hs.count * 8 = BitVec.ofNat 64 (8 * msg.length) := by
  rw [h.count, Nat.mul_comm, BitVec.ofNat_mul]
  rfl

/-- The blocks of the padded message are those absorbed, then those of the last `j` blocks. -/
theorem Absorbed.foldl_blocksOf_md5Pad {msg : List Byte} {hs : HashState} (h : Absorbed msg hs) (j : Nat)
    (hj : (md5Pad msg).length / 64 = msg.length / 64 + j) :
    (blocksOf (md5Pad msg)).foldl md5Compress md5InitV =
      ((List.range j).map fun t => blockOf (md5Pad msg) (msg.length / 64 + t)).foldl md5Compress hs.h := by
  rw [h.h, ← List.foldl_append]
  exact congrArg _ (blocksOf_append msg _ j hj)

/-- The blocks of the padded message compressed in order, from a HashState that has absorbed the message. -/
theorem Absorbed.md5Final_h {msg : List Byte} {hs : HashState} (h : Absorbed msg hs) :
    (md5Final hs).h = (blocksOf (md5Pad msg)).foldl md5Compress md5InitV := by
  have length := md5Pad_length msg
  have bufLen := h.bufLen
  obtain ⟨one, two, -, -⟩ := finalPadsTheRemainder hs
  rcases Nat.lt_or_ge 55 hs.bufLen.val with many | few
  · obtain ⟨first, last, final, firstBytes, lastBytes⟩ := two many
    have hfirst : first = blockOf (md5Pad msg) (msg.length / 64) := eq_blockOf fun k => by
      rw [firstBytes, md5Pad_getD msg (by omega)]
      exact ite_congr (propext (by omega)) (fun _ => h.pending k (by omega)) fun _ =>
        if_congr (by omega) rfl (if_pos (by omega)).symm
    have hlast : last = blockOf (md5Pad msg) (msg.length / 64 + 1) := eq_blockOf fun k => by
      have position : 64 * (msg.length / 64 + 1) + k.val + 8 - (md5Pad msg).length = k.val - 56 := by omega
      rw [md5Pad_getD msg (by omega), if_neg (by omega), if_neg (by omega), position, lastBytes, h.bits]
      exact if_congr (by omega) rfl rfl
    rw [final, hfirst, hlast, h.foldl_blocksOf_md5Pad 2 (by omega)]
    rfl
  · obtain ⟨only, final, bytes⟩ := one few
    have honly : only = blockOf (md5Pad msg) (msg.length / 64) := eq_blockOf fun k => by
      have position : 64 * (msg.length / 64) + k.val + 8 - (md5Pad msg).length = k.val - 56 := by omega
      rw [bytes, md5Pad_getD msg (by omega), h.bits, position]
      exact ite_congr (propext (by omega)) (fun _ => h.pending k (by omega)) fun _ =>
        if_congr (by omega) rfl (if_congr (by omega) rfl rfl)
    rw [final, honly, h.foldl_blocksOf_md5Pad 1 (by omega)]
    rfl

/-- `H` after hashing a message, whatever HashState held before. -/
theorem md5Run_h (hs : HashState) (msg : List Byte) : (md5Run hs msg).h = (blocksOf (md5Pad msg)).foldl md5Compress md5InitV :=
  (absorbed_md5Absorb hs msg).md5Final_h

/-- Settles O32: the blocks of the padded message, counted by its length. -/
theorem compressionCount : Obligations.CompressionCount := by
  intro hs msg _
  have length := md5Pad_length msg
  rw [blocksOf_length]
  refine ⟨md5Run_h hs msg, ?_, fun few => ?_, fun many => ?_⟩ <;> omega

end Sys2Proof.Machine
end

section
/-! PROOF. `MD5.HASH` on every input, and the digest as bytes and registers (40_md5.md R132, R134 to R136). -/

namespace Sys2Proof.Machine

/-! ## The command -/

theorem execMd5Hash_outOfRange {s : State} (h : outOfRange s) : execMd5Hash s = .next (raise .range s) := by
  rw [execMd5Hash, if_pos (bufferInRange_eq_false_iff.mpr h)]

theorem execMd5Hash_empty {s : State} (h : ¬ outOfRange s) (hlen : s.len = 0) :
    execMd5Hash s = .next (succeed { s with digest := Vector.replicate 16 0x00#8 }) := by
  rw [execMd5Hash, if_neg (mt bufferInRange_eq_false_iff.mp h), if_pos hlen]

theorem execMd5Hash_inside {s : State} (h : ¬ outOfRange s) (hlen : s.len ≠ 0) :
    execMd5Hash s = .next (succeed (dropHashState { s with digest := md5Digest (bufferBytes s) })) := by
  have buffer : bufStart s + bufLength s ≤ s.cfg.dataSize := Nat.le_of_not_lt h
  rw [execMd5Hash, if_neg (mt bufferInRange_eq_false_iff.mp h), if_neg hlen, memReadBytes_inside _ _ _ _ buffer, md5Digest,
    ← md5Run_h s.hash]
  rfl

/-- Settles O33: the three paths of the command. -/
theorem hashDigestsTheBuffer : Obligations.HashDigestsTheBuffer :=
  ⟨rfl, fun _ => ⟨execMd5Hash_outOfRange, execMd5Hash_empty, fun h hlen => ⟨_, _, execMd5Hash_inside h hlen⟩⟩⟩

/-- Buffers of the same bytes have the same length. -/
theorem len_eq_of_bufferBytes_eq {s t : State} (h : bufferBytes s = bufferBytes t) : s.len = t.len :=
  BitVec.eq_of_toNat_eq (by simpa [bufferBytes, bufLength] using congrArg List.length h)

/-- Settles O34: the two buffers have the same length, so both states take the same path, which digests the bytes alone. -/
theorem hashIsAFunctionOfTheBytes : Obligations.HashIsAFunctionOfTheBytes := by
  intro s t hs ht bytes
  have len := len_eq_of_bufferBytes_eq bytes
  by_cases empty : s.len = 0
  · exact ⟨_, _, execMd5Hash_empty hs empty, execMd5Hash_empty ht (len ▸ empty), rfl⟩
  · exact ⟨_, _, execMd5Hash_inside hs empty, execMd5Hash_inside ht (len ▸ empty), congrArg md5Digest bytes⟩

/-! ## The digest -/

/-- Four serialised bytes read back as the word (00_scope.md R10). -/
theorem le32_ser32 (w : Word) : le32 (ser32 w 0) (ser32 w 1) (ser32 w 2) (ser32 w 3) = w := by
  have join {i j n : Nat} (h : i = j + 8) : w.extractLsb' i n ++ w.extractLsb' j 8 = w.extractLsb' j (n + 8) :=
    BitVec.extractLsb'_append_extractLsb'_eq_extractLsb' h
  rw [le32, ser32, ser32, ser32, ser32, join (by rfl : 8 * 3 = 8 * 2 + 8), join (by rfl : 8 * 2 = 8 * 1 + 8),
    join (by rfl : 8 * 1 = 8 * 0 + 8)]
  exact BitVec.extractLsb'_eq_self

/-- Settles O35: serialisation byte by byte, and the four words read back. -/
theorem digestRegistersShowTheAccumulator : Obligations.DigestRegistersShowTheAccumulator := by
  intro h s digest
  have register (k : Fin 4) : digestWord s.digest k = digestWord (md5Serialize h) k := by rw [digest]
  rw [digest]
  refine ⟨fun k => ?_, rfl, rfl, (register 0).trans (le32_ser32 h.a), (register 1).trans (le32_ser32 h.b),
    (register 2).trans (le32_ser32 h.c), (register 3).trans (le32_ser32 h.d)⟩
  fin_cases k <;> exact ⟨rfl, rfl, rfl, rfl⟩

end Sys2Proof.Machine
end

section
/-! PROOF. `RC4.SETKEY` and `RC4.SETIV`: the whole commands, and the cipher state they keep (41_rc4_ksa.md R161, R162, R169). -/

namespace Sys2Proof.Machine

theorem execRc4SetKey_outOfRange {s : State} (h : outOfRange s) : execRc4SetKey s = .next (raise .range s) := by
  rw [execRc4SetKey, if_pos (bufferInRange_eq_false_iff.mpr h)]

/-- Settles O37: the two paths of the command. -/
theorem setKeyCopiesTheKey : Obligations.SetKeyCopiesTheKey :=
  ⟨rfl, fun s => ⟨execRc4SetKey_outOfRange, fun hin =>
    ⟨_, execRc4SetKey_inside hin, fun _ hk => storeKey_get_copied (fun k => s.data.peek (bufStart s + k)) s.key hk⟩⟩⟩

/-- The reserved bits alone make a word illegal (30_encoding.md R97). -/
theorem executeCommand_of_reservedBits {w : Word} (h : rsvField w ≠ 0x0000#16) (s : State) :
    executeCommand w s = .next (raise .illegal s) := by
  rw [executeCommand, decode, if_neg h]

/-- Settles O38: the words are the encoder's, so they decode back; the command has no failing path. -/
theorem setIvSetsTheIv : Obligations.SetIvSetsTheIv :=
  ⟨fun imm8 _ => ⟨decode_encode (.rc4SetIv imm8), rfl⟩, fun _ s h => executeCommand_of_reservedBits h s, rfl⟩

/-- Settles O43: `RC4.SETKEY` writes `ERR` alone or the key and `ERR`, `RC4.SETIV` writes `IV` and `ERR`. -/
theorem keyAndIvChangesKeepTheBox : Obligations.KeyAndIvChangesKeepTheBox := by
  rintro i s t (rfl | ⟨v, rfl⟩) h
  · by_cases hout : outOfRange s
    · obtain rfl := Host.Outcome.next.inj ((execRc4SetKey_outOfRange hout).symm.trans h)
      exact ⟨rfl, rfl, rfl⟩
    · obtain rfl := Host.Outcome.next.inj ((execRc4SetKey_inside hout).symm.trans h)
      exact ⟨rfl, rfl, rfl⟩
  · obtain rfl := Host.Outcome.next.inj h
    exact ⟨rfl, rfl, rfl⟩

end Sys2Proof.Machine
end

section
/-! PROOF. The key schedule: the fill and the mix, and that the generated box depends on the used key bytes, their number and `IV`
alone (41_rc4_ksa.md R163 to R167). -/

namespace Sys2Proof.Machine

/-! ## The fill -/

/-- Settles O39: the closed form of the fill; a complement is a subtraction from 0xFF. -/
theorem fillInClosedForm : Obligations.FillInClosedForm := by
  refine fun box iv => ⟨ksaFill_iv box iv, fun i => ⟨boxAt_ksaFill box iv i, ?_⟩⟩
  calc boxAt (ksaFill box iv).1 i
    _ = (iv + i) ^^^ BitVec.allOnes 8 := boxAt_ksaFill box iv i
    _ = ~~~(iv + i) := BitVec.xor_allOnes
    _ = BitVec.allOnes 8 - (iv + i) := (BitVec.allOnes_sub_eq_not _).symm

/-- The fill forgets the `BOX` it starts from. -/
theorem ksaFill_box_eq (t u : Vector Byte 256) (iv : Byte) : (ksaFill t iv).1 = (ksaFill u iv).1 :=
  box_ext fun i => by rw [boxAt_ksaFill, boxAt_ksaFill]

/-! ## The mix -/

/-- `BOX` and `j` before step `n` of the mix that starts from `box`. -/
def mixedBefore (key : Vector Byte 255) (keyLen : Word) (box : Vector Byte 256) (n : Nat) : Vector Byte 256 × Byte :=
  forUp (ksaMixStep key (keyBytesUsed keyLen)) n 0 (box, 0x00#8)

theorem mixedBefore_succ (key : Vector Byte 255) (keyLen : Word) (box : Vector Byte 256) (n : Nat) :
    mixedBefore key keyLen box (n + 1) = ksaMixStep key (keyBytesUsed keyLen) n (mixedBefore key keyLen box n) := by
  rw [mixedBefore, forUp_last, Nat.zero_add]
  rfl

/-- Every mix step reads a key byte in use, the same one of every key of this length. -/
theorem keyByte_eq_get {keyLen : Word} (h : keyLen ≠ 0) (i : Nat) :
    ∃ k : Fin 255, k.val = i % keyBytesUsed keyLen ∧ k.val < keyBytesUsed keyLen ∧
      ∀ key : Vector Byte 255, keyByte key (keyBytesUsed keyLen) i = key.get k := by
  have positive : keyLen.toNat ≠ 0 := fun h0 => h (BitVec.eq_of_toNat_eq h0)
  have used : i % keyBytesUsed keyLen < keyBytesUsed keyLen := Nat.mod_lt _ (by unfold keyBytesUsed; omega)
  have bound : keyBytesUsed keyLen ≤ 255 := Nat.min_le_right _ _
  exact ⟨⟨i % keyBytesUsed keyLen, by omega⟩, rfl, used, fun key => congrArg key.get (Fin.ext (Nat.mod_eq_of_lt (by omega)))⟩

/-- Settles O40: the loop's states are the recurrence, and a swap read entry by entry is the rule's exchange. -/
theorem mixFollowsTheRecurrence : Obligations.MixFollowsTheRecurrence := by
  intro key keyLen box hlen
  refine ⟨fun n => (mixedBefore key keyLen box n).1, fun n => (mixedBefore key keyLen box n).2, rfl, rfl, rfl, fun i => ?_⟩
  obtain ⟨k, hk, -, hbyte⟩ := keyByte_eq_get hlen i.toNat
  have index : BitVec.ofNat 8 i.toNat = i := by rw [BitVec.ofNat_toNat, BitVec.setWidth_eq]
  refine ⟨k, hk, ?_, fun x => ?_⟩
  · simp only [mixedBefore_succ, ksaMixStep, index, hbyte]
  · simp only [mixedBefore_succ, ksaMixStep, index, boxAt_boxSwap]

/-! ## What the generated box depends on -/

/-- The mix reads the key bytes in use only. -/
theorem ksaMix_congr {key key' : Vector Byte 255} {n n' : Word} (box : Vector Byte 256) (hn : n ≠ 0)
    (used : keyBytesUsed n = keyBytesUsed n') (bytes : ∀ k : Fin 255, k.val < keyBytesUsed n → key.get k = key'.get k) :
    ksaMix key n box = ksaMix key' n' box := by
  have step : ksaMixStep key (keyBytesUsed n) = ksaMixStep key' (keyBytesUsed n) := by
    funext i p
    obtain ⟨k, -, hk, hbyte⟩ := keyByte_eq_get hn i
    rw [ksaMixStep, ksaMixStep, hbyte, hbyte, bytes k hk]
  rw [ksaMix, ksaMix, ← used, step]

theorem generatedBox_congr {key key' : Vector Byte 255} {n n' : Word} (iv : Byte) (hn : n ≠ 0)
    (used : keyBytesUsed n = keyBytesUsed n') (bytes : ∀ k : Fin 255, k.val < keyBytesUsed n → key.get k = key'.get k) :
    generatedBox key n iv = generatedBox key' n' iv := by
  rw [generatedBox, generatedBox, ksaMix_congr _ hn used bytes]

/-- `ksa()` in closed form: the generated box whatever `BOX` held, and `IV` as it was (R165, R166). -/
theorem ksa_eq (s : State) : ksa s = { s with perm := generatedBox s.key s.keyLen s.iv, init := true } := by
  rw [ksa, generatedBox, ksaFill_iv, ksaFill_box_eq s.perm.box (Vector.replicate 256 0x00#8)]

/-- Settles O41: `ksa()` in closed form, and the mix reads the key bytes in use only. -/
theorem keyScheduleIsDetermined : Obligations.KeyScheduleIsDetermined := by
  refine ⟨ksa_eq, fun s t used hn iv bytes => ?_⟩
  rw [ksa_eq, ksa_eq, ← iv]
  exact generatedBox_congr s.iv hn used bytes

/-- At most 255 bytes of a key are in use. -/
theorem keyBytesUsed_of_long {n : Word} (h : 255 ≤ n.toNat) : keyBytesUsed n = 255 := Nat.min_eq_right h

/-- Settles O42: both lengths put 255 bytes in use, and 255 modulo 255 is 0. -/
theorem longKeysAreCutAt255 : Obligations.LongKeysAreCutAt255 := by
  refine ⟨fun key n n' iv hn hn' => ?_, fun key n hn => ?_⟩
  · have used : keyBytesUsed n = keyBytesUsed n' := (keyBytesUsed_of_long hn).trans (keyBytesUsed_of_long hn').symm
    have same : generatedBox key n iv = generatedBox key n' iv :=
      generatedBox_congr iv (by rintro rfl; exact absurd hn (by decide)) used fun _ _ => rfl
    exact ⟨same, fun p => by rw [same]⟩
  · rw [keyBytesUsed_of_long hn]
    rfl

end Sys2Proof.Machine
end

section
/-! PROOF. The keystream engine: one advance step, one output byte, and fast-forwarding (42_rc4_prga.md R180 to R182). -/

namespace Sys2Proof.Machine

/-- Swapping an entry with itself changes nothing (00_scope.md R11). -/
theorem boxSwap_self (t : Vector Byte 256) (i : Byte) : boxSwap t i i = t := by
  refine box_ext fun k => ?_
  rw [boxAt_boxSwap]
  split_ifs with hk
  · rw [hk]
  · rfl

/-- The two ends of a swap may be named in either order. -/
theorem boxSwap_comm (t : Vector Byte 256) (i j : Byte) : boxSwap t i j = boxSwap t j i := by
  refine box_ext fun k => ?_
  rw [boxAt_boxSwap, boxAt_boxSwap]
  split_ifs with hj hi
  · rw [← hi, hj]
  · rfl
  · rfl
  · rfl

/-- Settles O54: the new indices name themselves; the entries are those of a swap. -/
theorem advanceStepAndOutputByte : Obligations.AdvanceStepAndOutputByte := by
  intro c
  refine ⟨_, _, rfl, rfl, rfl, rfl, fun x => ?_, fun hab => ?_, rfl, rfl, fun p => rfl⟩
  · rw [prgaAdvance, boxSwap_comm, boxAt_boxSwap]
  · rw [prgaAdvance, ← hab, boxSwap_self]

theorem prgaSkip_eq_iterate (n : Nat) (c : PermBox) : prgaSkip n c = (fun x => (prgaOut x).2)^[n] c := by
  induction n generalizing c with
  | zero => rfl
  | succ n ih => rw [prgaSkip_succ, ih, Function.iterate_succ_apply, prgaOut_state]

/-- Settles O45: skipping is iterating, and every step moves `A` by one from the 0 that `ksa()` leaves. -/
theorem skipDiscardsOutputs : Obligations.SkipDiscardsOutputs := by
  refine fun n c => ⟨prgaSkip_eq_iterate n c, prgaSkip_a n c, prgaSkip_zero c, fun s => ?_⟩
  rw [prgaSkip_a, ksa_perm, BitVec.zero_add, BitVec.toNat_ofNat]

end Sys2Proof.Machine
end

section
/-! PROOF. `RC4.CRYPT` on every input, and the cipher applied twice (42_rc4_prga.md R184, R186, R187). -/

namespace Sys2Proof.Machine

/-! ## A buffer XORed with the keystream -/

/-- `m'` is `DATA` once `n` bytes of `m` from `p` on were XORed with the keystream of `c`, in the canonical form. -/
def XoredInto (m : Memory) (p n : Nat) (c : PermBox) (m' : Memory) : Prop :=
  Memory.wf m' ∧ ∀ a, m'.peek a = xoredByte m p n (keystreamByte c) a

/-- XORing a buffer with the same keystream again restores `DATA`; an empty buffer is not touched by either pass, whatever the
keystreams (R184). -/
theorem XoredInto.restores {m m' m'' : Memory} {p n : Nat} {c c' : PermBox} (hm : Memory.wf m) (first : XoredInto m p n c m')
    (second : XoredInto m' p n c' m'') (same : n ≠ 0 → c' = c) : m'' = m := by
  obtain ⟨-, hfirst⟩ := first
  obtain ⟨hm'', hsecond⟩ := second
  refine Memory.ext_peek hm'' hm fun a => ?_
  rw [hsecond, xoredByte, hfirst, xoredByte]
  split_ifs with hin
  · rw [same (by omega), BitVec.xor_assoc, BitVec.xor_self, BitVec.xor_zero]
  · rfl

/-- The last part of a cipher command: `xor_buffer()` over a buffer inside `DATA` completes, and then `done` is applied. -/
theorem finish_xorOperandBuffer {s : State} (hdata : Memory.wf s.data) (hin : ¬ outOfRange s) (done : State → State) :
    ∃ m, finish (xorOperandBuffer s >>= fun u => .ok (done u)) =
        .next (done { s with data := m, perm := prgaSkip s.len.toNat s.perm }) ∧
      XoredInto s.data s.ptr.toNat s.len.toNat s.perm m := by
  obtain ⟨m, hrun, -, hm⟩ := xorOperandBuffer_inside s (Nat.le_of_not_lt hin)
  exact ⟨m, by rw [hrun]; rfl, hm hdata⟩

/-! ## `RC4.CRYPT` -/

/-- The cipher state `RC4.CRYPT` uses: the box it finds, or a generated one where `STATUS.INIT = 0`. -/
def cryptBox (s : State) : PermBox := if s.init then s.perm else generatedBox s.key s.keyLen s.iv

theorem cryptBox_of_init {s : State} (h : s.init = true) : cryptBox s = s.perm := if_pos h

theorem cryptStart_eq (s : State) : (if s.init then s else ksa s) = { s with perm := cryptBox s, init := true } := by
  rw [ksa_eq, cryptBox]
  split_ifs with hinit
  · rw [← hinit]
  · rfl

theorem execRc4Crypt_outOfRange {s : State} (h : outOfRange s) : execRc4Crypt s = .next (raise .range s) := by
  rw [execRc4Crypt, if_pos (bufferInRange_eq_false_iff.mpr h)]

theorem execRc4Crypt_noKey {s : State} (hin : ¬ outOfRange s) (hinit : s.init = false) (hkey : s.keyLen = 0) :
    execRc4Crypt s = .next (raise .noKey s) := by
  rw [execRc4Crypt, if_neg (mt bufferInRange_eq_false_iff.mp hin), if_pos ⟨hinit, hkey⟩]

/-- `RC4.CRYPT` on a buffer inside `DATA`, with a key where one is needed (R186). -/
theorem execRc4Crypt_inside {s : State} (hdata : Memory.wf s.data) (hin : ¬ outOfRange s)
    (hkey : s.init = false → s.keyLen ≠ 0) :
    ∃ m, execRc4Crypt s =
        .next { s with data := m, perm := prgaSkip s.len.toNat (cryptBox s), init := false, err := .ok } ∧
      XoredInto s.data s.ptr.toNat s.len.toNat (cryptBox s) m := by
  obtain ⟨m, hrun, hm⟩ := finish_xorOperandBuffer (s := { s with perm := cryptBox s, init := true }) hdata hin
    fun u => succeed { u with init := false }
  refine ⟨m, ?_, hm⟩
  rw [execRc4Crypt, if_neg (mt bufferInRange_eq_false_iff.mp hin), if_neg (not_and.mpr hkey), cryptStart_eq]
  exact hrun

/-- Settles O46: the three paths of the command. -/
theorem cryptXorsTheBufferOnce : Obligations.CryptXorsTheBufferOnce := by
  refine ⟨rfl, fun s hdata => ⟨execRc4Crypt_outOfRange, execRc4Crypt_noKey, ?_⟩⟩
  rintro c rfl hin hkey
  exact execRc4Crypt_inside hdata hin hkey

/-! ## While a stream is active -/

/-- `RC4.CRYPT` does not initialise the box for a later command: it clears `INIT`, or fails and keeps it. -/
theorem init_of_execRc4Crypt {s t : State} (h : execRc4Crypt s = .next t) (hinit : s.init = false) : t.init = false := by
  cases execRc4Crypt_end h with
  | range => exact hinit
  | noKey => exact hinit
  | used => rfl

/-- Of the commands only `RC4.STREAM` leaves a box initialised where there was none. -/
theorem init_of_exec {i : Instr} {s t : State} (hi : i ≠ .rc4Stream) (h : exec i s = .next t) (hinit : s.init = false) :
    t.init = false := by
  cases i with
  | md5Hash =>
    rw [eq_withCipherOf_of_execMd5Hash h]
    exact hinit
  | rc4SetKey => exact (keyAndIvChangesKeepTheBox _ s t (.inl rfl) h).1.trans hinit
  | rc4SetIv imm8 => exact (keyAndIvChangesKeepTheBox _ s t (.inr ⟨imm8, rfl⟩) h).1.trans hinit
  | rc4Crypt => exact init_of_execRc4Crypt h hinit
  | rc4Stream => exact absurd rfl hi
  | rc4Reset =>
    obtain rfl := Host.Outcome.next.inj h
    rfl

/-- Settles O47: `RC4.CRYPT` uses the box it finds, whose keystream is the stream's from `POS` on. -/
theorem cryptContinuesAnActiveStream : Obligations.CryptContinuesAnActiveStream := by
  refine ⟨fun i s t h hs ht => ?_, fun s key keyLen iv hdata hin hinit hperm => ?_⟩
  · by_contra hi
    rw [init_of_exec hi h hs] at ht
    cases ht
  · obtain ⟨m, hrun, -, hbytes⟩ := execRc4Crypt_inside hdata hin (by simp [hinit])
    refine ⟨_, hrun, rfl, rfl, rfl, fun a => ?_⟩
    have stream : keystreamByte (cryptBox s) = fun k => keystreamByte (generatedBox key keyLen iv) (s.pos.toNat + k) := by
      funext k
      rw [cryptBox_of_init hinit, hperm, keystreamByte_prgaSkip]
    rw [hbytes, stream]

/-! ## `RC4.STREAM` -/

/-- The cipher state `RC4.STREAM` uses: that of a restart at `OFF`, or the box it finds (43_rc4_stream.md R201). -/
def streamBox (s : State) : PermBox :=
  if streamRestarts s then prgaSkip (offset s).toNat (generatedBox s.key s.keyLen s.iv) else s.perm

theorem streamRestarts_iff {s : State} : streamRestarts s = true ↔ s.init = false ∨ offset s ≠ s.pos := by
  simp [streamRestarts]

theorem streamBox_of_restart {s : State} (h : s.init = false ∨ offset s ≠ s.pos) :
    streamBox s = prgaSkip (offset s).toNat (generatedBox s.key s.keyLen s.iv) := if_pos (streamRestarts_iff.mpr h)

theorem streamStart_eq (s : State) :
    (if streamRestarts s then streamRestart s else s) = { s with perm := streamBox s, init := true, pos := offset s } := by
  rw [streamRestart, ksa_eq, streamBox]
  split_ifs with hrestart
  · rfl
  · rw [streamRestarts_iff, not_or, Bool.not_eq_false, not_not] at hrestart
    obtain ⟨hinit, hpos⟩ := hrestart
    rw [hpos, ← hinit]

/-- `RC4.STREAM` on a buffer inside `DATA`, with a key where one is needed (43_rc4_stream.md R201). -/
theorem execRc4Stream_inside {s : State} (hdata : Memory.wf s.data) (hin : ¬ outOfRange s)
    (hkey : s.init = false ∨ offset s ≠ s.pos → s.keyLen ≠ 0) :
    ∃ m, execRc4Stream s = .next
        { s with
          data := m, perm := prgaSkip s.len.toNat (streamBox s), init := true, pos := offset s + s.len.zeroExtend 64
          err := .ok } ∧
      XoredInto s.data s.ptr.toNat s.len.toNat (streamBox s) m := by
  obtain ⟨m, hrun, hm⟩ := finish_xorOperandBuffer (s := { s with perm := streamBox s, init := true, pos := offset s }) hdata hin
    fun u => succeed { u with pos := u.pos + s.len.zeroExtend 64 }
  refine ⟨m, ?_, hm⟩
  rw [execRc4Stream, if_neg (mt bufferInRange_eq_false_iff.mp hin),
    if_neg (not_and.mpr fun hrestart => hkey (streamRestarts_iff.mp hrestart)), streamStart_eq]
  exact hrun

/-! ## The cipher applied twice -/

/-- After a call over a non-empty buffer `POS` is past `OFF`, so a second call at that offset restarts. -/
theorem offset_ne_add_len (off : Dword) {len : Word} (h : len.toNat ≠ 0) : off ≠ off + len.zeroExtend 64 := by
  bv_omega

/-- One-shot encryption, then one-shot decryption (R184). -/
theorem execRc4Crypt_twice {s : State} (hdata : Memory.wf s.data) (hin : ¬ outOfRange s) (hkey : s.keyLen ≠ 0)
    (hinit : s.init = false) :
    ∃ t u, execRc4Crypt s = .next t ∧ execRc4Crypt t = .next u ∧ u.data = s.data ∧ u.key = s.key ∧ u.keyLen = s.keyLen ∧
      u.iv = s.iv ∧ u.init = false ∧ u.err = .ok := by
  obtain ⟨m, hfirst, hm⟩ := execRc4Crypt_inside hdata hin fun _ => hkey
  obtain ⟨m', hsecond, hm'⟩ := execRc4Crypt_inside
    (s := { s with data := m, perm := prgaSkip s.len.toNat (cryptBox s), init := false, err := .ok }) hm.1 hin fun _ => hkey
  refine ⟨_, _, hfirst, hsecond, hm.restores hdata hm' fun _ => ?_, rfl, rfl, rfl, rfl, rfl⟩
  rw [cryptBox, cryptBox, hinit]
  rfl

/-- `RC4.STREAM` twice at one offset, the first call a restart: the second restarts at the same place, or the buffer is empty
(R184). -/
theorem execRc4Stream_twice {s : State} (hdata : Memory.wf s.data) (hin : ¬ outOfRange s) (hkey : s.keyLen ≠ 0)
    (hrestart : s.init = false ∨ offset s ≠ s.pos) :
    ∃ t u, execRc4Stream s = .next t ∧ execRc4Stream t = .next u ∧ u.data = s.data ∧ u.err = .ok := by
  obtain ⟨m, hfirst, hm⟩ := execRc4Stream_inside hdata hin fun _ => hkey
  obtain ⟨m', hsecond, hm'⟩ := execRc4Stream_inside
    (s := { s with
      data := m, perm := prgaSkip s.len.toNat (streamBox s), init := true, pos := offset s + s.len.zeroExtend 64, err := .ok })
    hm.1 hin fun _ => hkey
  refine ⟨_, _, hfirst, hsecond, hm.restores hdata hm' fun hlen => ?_, rfl⟩
  rw [streamBox_of_restart hrestart, streamBox_of_restart (.inr (offset_ne_add_len _ hlen))]
  rfl

/-- Settles O48: both calls XOR the same buffer with the same keystream. -/
theorem cipherTwiceRestoresTheData : Obligations.CipherTwiceRestoresTheData :=
  fun _ hdata hin hkey => ⟨execRc4Crypt_twice hdata hin hkey, execRc4Stream_twice hdata hin hkey⟩

end Sys2Proof.Machine
end

section
/-! PROOF. `RC4.STREAM` on every input, the position it keeps, and the keystream byte of each stream position; `RC4.RESET`
(43_rc4_stream.md R201 to R205, R207). -/

namespace Sys2Proof.Machine

/-! ## `RC4.STREAM` on every input -/

theorem execRc4Stream_outOfRange {s : State} (h : outOfRange s) : execRc4Stream s = .next (raise .range s) := by
  rw [execRc4Stream, if_pos (bufferInRange_eq_false_iff.mpr h)]

theorem execRc4Stream_noKey {s : State} (hin : ¬ outOfRange s) (hrestart : s.init = false ∨ offset s ≠ s.pos)
    (hkey : s.keyLen = 0) : execRc4Stream s = .next (raise .noKey s) := by
  rw [execRc4Stream, if_neg (mt bufferInRange_eq_false_iff.mp hin), if_pos ⟨streamRestarts_iff.mpr hrestart, hkey⟩]

theorem streamBox_of_continue {s : State} (h : ¬ (s.init = false ∨ offset s ≠ s.pos)) : streamBox s = s.perm :=
  if_neg (mt streamRestarts_iff.mp h)

/-- Settles O49: the three paths of the command; the cipher state used is that of a restart, or the box found. -/
theorem streamXorsAtTheOffset : Obligations.StreamXorsAtTheOffset := by
  refine ⟨rfl, ?_⟩
  rintro s off restart hdata rfl hiff
  refine ⟨execRc4Stream_outOfRange, fun hin hrestart => execRc4Stream_noKey hin (hiff.mp hrestart), ?_⟩
  intro c hfresh hfound hin hkey
  have used : c = streamBox s := by
    by_cases hrestart : restart
    · exact (hfresh hrestart).trans (streamBox_of_restart (hiff.mp hrestart)).symm
    · exact (hfound hrestart).trans (streamBox_of_continue (mt hiff.mpr hrestart)).symm
  rw [used]
  exact execRc4Stream_inside hdata hin fun h => hkey (hiff.mpr h)

/-! ## The position and the cipher state -/

/-- A command that ends with `ERR = 0` did not take one of the error paths. -/
theorem inputs_of_execRc4Stream_ok {s t : State} (h : execRc4Stream s = .next t) (hok : t.err = .ok) :
    ¬ outOfRange s ∧ (s.init = false ∨ offset s ≠ s.pos → s.keyLen ≠ 0) := by
  cases execRc4Stream_end h with
  | range => cases hok
  | noKey => cases hok
  | used hin hkey => exact ⟨hin, fun hrestart => not_and.mp hkey (streamRestarts_iff.mpr hrestart)⟩

/-- Whether the command restarts or continues, it uses the box of `key`, `keyLen` and `iv` advanced `OFF` steps: a restart makes
that box from the machine's own values, and a continuing call finds it at `POS = OFF` (R202). -/
theorem streamBox_eq_generated {s : State} {key : Vector Byte 255} {keyLen : Word} {iv : Byte}
    (fresh : s.init = false ∨ offset s ≠ s.pos → key = s.key ∧ keyLen = s.keyLen ∧ iv = s.iv)
    (found : s.init = true → offset s = s.pos → s.perm = prgaSkip s.pos.toNat (generatedBox key keyLen iv)) :
    streamBox s = prgaSkip (offset s).toNat (generatedBox key keyLen iv) := by
  by_cases hrestart : s.init = false ∨ offset s ≠ s.pos
  · obtain ⟨rfl, rfl, rfl⟩ := fresh hrestart
    exact streamBox_of_restart hrestart
  · rw [streamBox_of_continue hrestart]
    rw [not_or, Bool.not_eq_false, not_not] at hrestart
    obtain ⟨hinit, hpos⟩ := hrestart
    rw [found hinit hpos, hpos]

theorem toNat_add_zeroExtend (off : Dword) (len : Word) :
    (off + len.zeroExtend 64).toNat = (off.toNat + len.toNat) % 2 ^ 64 := by
  bv_omega

/-- While `OFF + LEN` has not wrapped, the box advanced over the buffer from `OFF` is the box advanced `POS` steps (R203, R207). -/
theorem prgaSkip_len_prgaSkip_off {off : Dword} {len : Word} (h : off.toNat + len.toNat < 2 ^ 64) (c : PermBox) :
    prgaSkip len.toNat (prgaSkip off.toNat c) = prgaSkip (off + len.zeroExtend 64).toNat c := by
  rw [toNat_add_zeroExtend, Nat.mod_eq_of_lt h, prgaSkip_add]

/-- `A` of a generated box counts the advance steps modulo 256 (R203). -/
theorem prgaSkip_generatedBox_a (n : Nat) (key : Vector Byte 255) (keyLen : Word) (iv : Byte) :
    (prgaSkip n (generatedBox key keyLen iv)).a.toNat = n % 256 := by
  have start : (generatedBox key keyLen iv).a = 0#8 := rfl
  rw [prgaSkip_a, start, BitVec.zero_add, BitVec.toNat_ofNat]

/-- Settles O50: the box used is the generated one at `OFF`, so the box left is that one `OFF + LEN` steps on; 256 divides 2^64, so
`A` follows `POS` across a wrap too. -/
theorem streamKeepsThePosition : Obligations.StreamKeepsThePosition := by
  intro s t hdata h hok
  obtain ⟨hin, hkey⟩ := inputs_of_execRc4Stream_ok h hok
  obtain ⟨m, hrun, -⟩ := execRc4Stream_inside hdata hin hkey
  obtain rfl := Host.Outcome.next.inj (h.symm.trans hrun)
  refine ⟨toNat_add_zeroExtend _ _, fun key keyLen iv fresh found => ?_⟩
  simp only [streamBox_eq_generated fresh found]
  refine ⟨?_, fun hwrap => prgaSkip_len_prgaSkip_off hwrap _⟩
  rw [← prgaSkip_add, prgaSkip_generatedBox_a, toNat_add_zeroExtend]
  omega

/-! ## The keystream byte of each stream position -/

theorem cryptBox_of_not_init {s : State} (h : s.init = false) : cryptBox s = generatedBox s.key s.keyLen s.iv := by
  rw [cryptBox, h]
  rfl

/-- Settles O52: the keystream of a box advanced `OFF` steps is the stream's from byte `OFF` on; `RC4.CRYPT` from `INIT = 0` uses the
generated box itself. -/
theorem streamByteUsesItsKeystreamByte : Obligations.StreamByteUsesItsKeystreamByte := by
  refine fun s hdata hin hkey => ⟨fun hstream => ?_, fun hinit => ?_⟩
  · have used := streamBox_eq_generated (fun _ => ⟨rfl, rfl, rfl⟩) fun hinit _ => hstream hinit
    obtain ⟨m, hrun, -, hbytes⟩ := execRc4Stream_inside hdata hin fun _ => hkey
    rw [used] at hrun hbytes
    refine ⟨_, hrun, rfl, rfl, rfl, rfl, fun hwrap => prgaSkip_len_prgaSkip_off hwrap _, fun a => ?_⟩
    have stream : keystreamByte (prgaSkip (offset s).toNat (generatedBox s.key s.keyLen s.iv)) =
        fun k => keystreamByte (generatedBox s.key s.keyLen s.iv) ((offset s).toNat + k) :=
      funext fun k => keystreamByte_prgaSkip _ k _
    rw [hbytes, stream]
  · obtain ⟨m, hrun, -, hbytes⟩ := execRc4Crypt_inside hdata hin fun _ => hkey
    refine ⟨_, hrun, rfl, fun a => ?_⟩
    rw [hbytes, cryptBox_of_not_init hinit]

/-! ## `RC4.RESET` -/

/-- Settles O53: the command has one path, and what it writes are constants. -/
theorem resetClearsTheStream : Obligations.ResetClearsTheStream :=
  ⟨rfl, fun _ => ⟨_, rfl, rfl, rfl⟩⟩

end Sys2Proof.Machine
end

section
/-! PROOF. `WR` and `RD` by index, the indices that hold no register, and which commands write `POS` and `IV`
(44_host_transactions.md R220 to R223). -/

namespace Sys2Proof.Machine

/-! ## Indices the host cannot write -/

/-- The indices that hold no register (44_host_transactions.md R223). -/
abbrev ReservedIndex (idx : BitVec 8) : Prop := idx = 0x0A#8 ∨ idx = 0x0B#8 ∨ 0x10#8 ≤ idx

/-- The indices of the read-only registers (R222). -/
abbrev readOnlyIndices : List (BitVec 8) :=
  [0x01#8, 0x06#8, 0x07#8, 0x08#8, 0x09#8, 0x0C#8, 0x0D#8, 0x0E#8, 0x0F#8]

/-- The indices a `WR` has an effect on (R220). -/
abbrev writableIndices : List (BitVec 8) := [0x00#8, 0x02#8, 0x03#8, 0x04#8, 0x05#8]

theorem not_reservedIndex_regIndex (r : Reg) : ¬ ReservedIndex (regIndex r) := by
  cases r <;> decide

theorem decodeReg_of_reserved {idx : BitVec 8} (h : ReservedIndex idx) : decodeReg idx = none := by
  refine Option.eq_none_iff_forall_ne_some.mpr fun r hr => not_reservedIndex_regIndex r ?_
  rwa [← decodeReg_eq_some_iff.mp hr]

theorem ne_of_mem_writableIndices {idx w : BitVec 8} (h : idx ∈ readOnlyIndices ∨ ReservedIndex idx)
    (hw : w ∈ writableIndices) : idx ≠ w := by
  have disjoint : ∀ x ∈ writableIndices, ¬ (x ∈ readOnlyIndices ∨ ReservedIndex x) := by decide
  rintro rfl
  exact disjoint _ hw h

/-! ## `WR` -/

theorem step_wr_of_ne_cmd {s : State} {idx : BitVec 8} {v : Word} {rest : List HostOp} (hin : s.inbox = .wr idx v :: rest)
    (h : idx ≠ 0x00#8) : step s = .next (writeOperand idx v { s with inbox := rest }) :=
  (step_cons hin).trans (hostWr_of_ne_cmd h v _)

/-- Settles O6: `CMD` by definition, every other index by what a `WR` makes of the operand registers. -/
theorem wrByIndex : Obligations.WrByIndex := by
  intro s idx v rest hin
  refine ⟨?cmd, ?ptr, ?len, ?offLo, ?offHi, fun hcmd hptr hlen hlo hhi => ?other⟩
  case cmd =>
    rintro rfl
    exact step_cons hin
  case other => rw [step_wr_of_ne_cmd hin hcmd, writeOperand_of_not_operand hptr hlen hlo hhi]
  all_goals
    rintro rfl
    exact step_wr_of_ne_cmd hin (by decide)

/-- A `WR` to a read-only register or to a reserved index is ignored (R222, R223). -/
theorem step_wr_ignored {s : State} {idx : BitVec 8} {v : Word} {rest : List HostOp} (hin : s.inbox = .wr idx v :: rest)
    (h : idx ∈ readOnlyIndices ∨ ReservedIndex idx) : step s = .next { s with inbox := rest } := by
  have other {w : BitVec 8} := ne_of_mem_writableIndices (w := w) h
  rw [step_wr_of_ne_cmd hin (other (by decide)),
    writeOperand_of_not_operand (other (by decide)) (other (by decide)) (other (by decide)) (other (by decide))]

/-! ## `RD` -/

/-- An `RD` answers the register's value; taking the transaction from the inbox changes no register. -/
theorem step_rd {s : State} {idx : BitVec 8} {rest : List HostOp} (hin : s.inbox = .rd idx :: rest) :
    step s = .next { s with inbox := rest, replies := s.replies ++ [.word (readReg idx s)] } :=
  step_cons hin

theorem readReg_of_reserved {idx : BitVec 8} (h : ReservedIndex idx) (s : State) : readReg idx s = 0#32 := by
  rw [readReg, decodeReg_of_reserved h]

theorem readReg_cmd (s : State) : readReg 0x00#8 s = 0#32 := rfl

/-- `STATUS` as R221 writes it, `ERR << 4 | INIT`. -/
theorem statusWord_eq_shift_or (s : State) :
    statusWord s = (s.err.code.zeroExtend 32 <<< 4) ||| (BitVec.ofBool s.init).zeroExtend 32 := by
  unfold statusWord
  cases s.err <;> cases s.init <;> decide

/-- Settles O7: the value is the register's; `STATUS` as a shift, a reserved index by the decoder, the other registers by definition. -/
theorem rdByIndex : Obligations.RdByIndex := by
  intro s idx rest hin
  refine ⟨readReg idx s, step_rd hin, ?_, ?status, ?_, ?_, ?_, ?_, ?_, ?_, ?_, ?_, ?_, ?_, ?_, ?_, fun h => readReg_of_reserved h s⟩
  case status =>
    rintro rfl
    exact statusWord_eq_shift_or s
  all_goals
    rintro rfl
    rfl

/-! ## Which commands write `POS` and `IV` -/

/-- What holds of the state after each end of a cipher command: an error that changes `ERR` alone, or `done` on the box the command
used with another `DATA` and cipher state. -/
theorem CipherEnd.imp {needsKey : Prop} {box s t : State} {done : State → State} (h : CipherEnd needsKey box done s t)
    {P : State → Prop} (hraise : ∀ e, P (raise e s)) (hdone : ∀ m c, P (done { box with data := m, perm := c })) : P t := by
  cases h with
  | range => exact hraise _
  | noKey => exact hraise _
  | used _ _ hrun =>
    obtain ⟨m, c, rfl⟩ := xorOperandBuffer_changes hrun
    exact hdone m c

/-- Every command but `RC4.STREAM` and `RC4.RESET` keeps `POS` (R222). -/
theorem pos_of_exec {i : Instr} {s t : State} (hstream : i ≠ .rc4Stream) (hreset : i ≠ .rc4Reset) (h : exec i s = .next t) :
    t.pos = s.pos := by
  cases i with
  | md5Hash => rw [eq_withCipherOf_of_execMd5Hash h]; rfl
  | rc4SetKey =>
    obtain ⟨-, -, hpos⟩ := keyAndIvChangesKeepTheBox _ s t (.inl rfl) h
    exact hpos
  | rc4SetIv imm8 =>
    obtain ⟨-, -, hpos⟩ := keyAndIvChangesKeepTheBox _ s t (.inr ⟨imm8, rfl⟩) h
    exact hpos
  | rc4Crypt =>
    have used := execRc4Crypt_end h
    rw [cryptStart_eq] at used
    exact used.imp (P := fun u => u.pos = s.pos) (fun _ => rfl) fun _ _ => rfl
  | rc4Stream => exact absurd rfl hstream
  | rc4Reset => exact absurd rfl hreset

/-- Every command but `RC4.SETIV` keeps `IV` (R222): the key schedule leaves it as it was. -/
theorem iv_of_exec {i : Instr} {s t : State} (hi : ∀ v, i ≠ .rc4SetIv v) (h : exec i s = .next t) : t.iv = s.iv := by
  cases i with
  | md5Hash => rw [eq_withCipherOf_of_execMd5Hash h]; rfl
  | rc4SetKey =>
    by_cases hout : outOfRange s
    · obtain rfl := Host.Outcome.next.inj ((execRc4SetKey_outOfRange hout).symm.trans h)
      rfl
    · obtain rfl := Host.Outcome.next.inj ((execRc4SetKey_inside hout).symm.trans h)
      rfl
  | rc4SetIv v => exact absurd rfl (hi v)
  | rc4Crypt =>
    have used := execRc4Crypt_end h
    rw [cryptStart_eq] at used
    exact used.imp (P := fun u => u.iv = s.iv) (fun _ => rfl) fun _ _ => rfl
  | rc4Stream =>
    have used := execRc4Stream_end h
    rw [streamStart_eq] at used
    exact used.imp (P := fun u => u.iv = s.iv) (fun _ => rfl) fun _ _ => rfl
  | rc4Reset =>
    obtain rfl := Host.Outcome.next.inj h
    rfl

/-! ## What a transaction can do to the cipher side -/

theorem executeCommand_runs_or_raises {w : Word} {s t : State} (h : executeCommand w s = .next t) :
    (∃ i, decode w = .ok i ∧ exec i s = .next t) ∨ t = raise .illegal s := by
  unfold executeCommand at h
  cases hd : decode w with
  | ok i =>
    rw [hd] at h
    exact .inl ⟨i, rfl, h⟩
  | error d =>
    rw [hd] at h
    exact .inr (Host.Outcome.next.inj h).symm

/-- A transaction that is no power-on reset runs a command, or leaves the cipher side as it was. -/
theorem hostStep_runs_command_or_keeps_cipher {op : HostOp} {s t : State} (h : hostStep op s = .next t) (hpow : op ≠ .powerOn) :
    (∃ w i, op = .wr 0x00#8 w ∧ decode w = .ok i ∧ exec i s = .next t) ∨ t = withCipherOf s t := by
  cases op with
  | wr idx v =>
    by_cases hidx : idx = 0x00#8
    · subst hidx
      obtain ⟨i, hd, hexec⟩ | rfl := executeCommand_runs_or_raises (w := v) h
      · exact .inl ⟨v, i, rfl, hd, hexec⟩
      · exact .inr rfl
    · rw [hostStep, hostWr_of_ne_cmd hidx] at h
      obtain rfl := Host.Outcome.next.inj h
      exact .inr rfl
  | rd idx =>
    obtain rfl := Host.Outcome.next.inj h
    exact .inr rfl
  | putData addr v =>
    obtain ⟨m, -, rfl⟩ := finish_bind_next h
    exact .inr rfl
  | getData addr =>
    obtain ⟨b, -, rfl⟩ := finish_bind_next h
    exact .inr rfl
  | powerOn => exact absurd rfl hpow

theorem step_runs_command_or_keeps_cipher {s t : State} (h : step s = .next t) (hpow : ∀ rest, s.inbox ≠ .powerOn :: rest) :
    (∃ w rest i, s.inbox = .wr 0x00#8 w :: rest ∧ decode w = .ok i ∧ exec i { s with inbox := rest } = .next t) ∨
      t = withCipherOf s t := by
  cases hin : s.inbox with
  | nil =>
    rw [step_nil hin] at h
    obtain rfl := Host.Outcome.next.inj h
    exact .inr rfl
  | cons op rest =>
    rw [step_cons hin] at h
    obtain ⟨w, i, rfl, hd, hexec⟩ | kept := hostStep_runs_command_or_keeps_cipher h fun hop => hpow rest (by rw [hin, hop])
    · exact .inl ⟨w, rest, i, rfl, hd, hexec⟩
    · exact .inr kept

/-- Settles O8: ignored writes, reads of indices without a value, and the command a step runs where it changes the cipher side. -/
theorem readOnlyAndReservedIndices : Obligations.ReadOnlyAndReservedIndices := by
  refine ⟨fun s idx v rest hin h => step_wr_ignored hin h, fun s idx rest hin h => ?_, fun s t h hpow =>
    ⟨fun hcmd => ?_, fun hcmd => ?_, fun hcmd => (sameKey_of_step h hcmd hpow).2⟩⟩
  · rw [step_rd hin]
    rcases h with rfl | hreserved
    · rw [readReg_cmd]
    · rw [readReg_of_reserved hreserved]
  · obtain ⟨w, rest, i, hin, hd, hexec⟩ | kept := step_runs_command_or_keeps_cipher h hpow
    · obtain ⟨hstream, hreset⟩ := hcmd w rest i hin hd
      exact pos_of_exec (s := { s with inbox := rest }) hstream hreset hexec
    · rw [kept]
      rfl
  · obtain ⟨w, rest, i, hin, hd, hexec⟩ | kept := step_runs_command_or_keeps_cipher h hpow
    · exact iv_of_exec (s := { s with inbox := rest }) (fun v hi => hcmd w rest v hin (hi ▸ hd)) hexec
    · rw [kept]
      rfl

end Sys2Proof.Machine
end

section
/-! PROOF. How every command ends: the one error it reports, or success; an error changes `STATUS.ERR` alone (60_exceptions.md R230,
R232 to R234). -/

namespace Sys2Proof.Machine

/-! ## Every command completes -/

/-- A command that uses the cipher completes on each of its three paths: past the range check every `DATA` address of `xor_buffer()`
exists. -/
theorem cipherCommand_completes {needsKey : Prop} [Decidable needsKey] {box s : State} (hbox : ¬ outOfRange s → ¬ outOfRange box)
    (done : State → State) :
    ∃ t, (if bufferInRange s = false then .next (raise .range s) else if needsKey then .next (raise .noKey s)
      else finish (xorOperandBuffer box >>= fun u => .ok (done u))) = .next t := by
  split_ifs with hout hkey
  · exact ⟨_, rfl⟩
  · exact ⟨_, rfl⟩
  · have hin : ¬ outOfRange s := mt bufferInRange_eq_false_iff.mpr hout
    obtain ⟨m, hrun, -⟩ := xorOperandBuffer_inside box (Nat.le_of_not_lt (hbox hin))
    rw [hrun]
    exact ⟨_, rfl⟩

/-- No command faults and none is refused, in any state (60_exceptions.md R230, R232). -/
theorem exec_completes (i : Instr) (s : State) : ∃ t, exec i s = .next t := by
  cases i with
  | md5Hash =>
    by_cases hout : outOfRange s
    · exact ⟨_, execMd5Hash_outOfRange hout⟩
    · by_cases hlen : s.len = 0
      · exact ⟨_, execMd5Hash_empty hout hlen⟩
      · exact ⟨_, execMd5Hash_inside hout hlen⟩
  | rc4SetKey =>
    by_cases hout : outOfRange s
    · exact ⟨_, execRc4SetKey_outOfRange hout⟩
    · exact ⟨_, execRc4SetKey_inside hout⟩
  | rc4SetIv imm8 => exact ⟨_, rfl⟩
  | rc4Crypt => exact cipherCommand_completes (by rw [cryptStart_eq]; exact id) _
  | rc4Stream => exact cipherCommand_completes (by rw [streamStart_eq]; exact id) _
  | rc4Reset => exact ⟨_, rfl⟩

/-! ## The end of each command -/

/-- How a command ends, by the inputs that decide it: one error in the order range, no key, or success (60_exceptions.md R233,
R234). The three conditions exclude each other and leave no case open. -/
inductive CommandEnd (i : Instr) (s : State) : State → Prop
  | range (hout : takesBuffer i ∧ outOfRange s) : CommandEnd i s (raise .range s)
  | noKey (hin : ¬ (takesBuffer i ∧ outOfRange s)) (hkey : needsKeySchedule i s ∧ s.keyLen = 0) : CommandEnd i s (raise .noKey s)
  | ok {u : State} (hin : ¬ (takesBuffer i ∧ outOfRange s)) (hkey : ¬ (needsKeySchedule i s ∧ s.keyLen = 0)) :
      CommandEnd i s (succeed u)

/-- The end of a cipher command, where its `needsKey` says what R168 does: the key schedule must run and there is no key. -/
theorem CipherEnd.commandEnd {needsKey : Prop} {box s t : State} {last : State → State}
    (h : CipherEnd needsKey box (fun u => succeed (last u)) s t) {i : Instr} (hbuf : takesBuffer i)
    (hneeds : needsKey ↔ needsKeySchedule i s ∧ s.keyLen = 0) : CommandEnd i s t := by
  cases h with
  | range hout => exact .range ⟨hbuf, hout⟩
  | noKey hin hkey => exact .noKey (fun hout => hin hout.2) (hneeds.mp hkey)
  | used hin hkey => exact .ok (fun hout => hin hout.2) (mt hneeds.mpr hkey)

/-- `MD5.HASH` and `RC4.SETKEY` check their buffer and need no key schedule; `RC4.SETIV` and `RC4.RESET` check nothing. -/
theorem commandEnd_of_exec {i : Instr} {s t : State} (h : exec i s = .next t) : CommandEnd i s t := by
  cases i with
  | md5Hash =>
    by_cases hout : outOfRange s
    · obtain rfl := Host.Outcome.next.inj ((execMd5Hash_outOfRange hout).symm.trans h)
      exact .range ⟨trivial, hout⟩
    · by_cases hlen : s.len = 0
      · obtain rfl := Host.Outcome.next.inj ((execMd5Hash_empty hout hlen).symm.trans h)
        exact .ok (fun hbuf => hout hbuf.2) fun hkey => hkey.1
      · obtain rfl := Host.Outcome.next.inj ((execMd5Hash_inside hout hlen).symm.trans h)
        exact .ok (fun hbuf => hout hbuf.2) fun hkey => hkey.1
  | rc4SetKey =>
    by_cases hout : outOfRange s
    · obtain rfl := Host.Outcome.next.inj ((execRc4SetKey_outOfRange hout).symm.trans h)
      exact .range ⟨trivial, hout⟩
    · obtain rfl := Host.Outcome.next.inj ((execRc4SetKey_inside hout).symm.trans h)
      exact .ok (fun hbuf => hout hbuf.2) fun hkey => hkey.1
  | rc4SetIv imm8 =>
    obtain rfl := Host.Outcome.next.inj h
    exact .ok (fun hbuf => hbuf.1) fun hkey => hkey.1
  | rc4Crypt => exact (execRc4Crypt_end h).commandEnd trivial Iff.rfl
  | rc4Stream => exact (execRc4Stream_end h).commandEnd trivial (and_congr_left' streamRestarts_iff)
  | rc4Reset =>
    obtain rfl := Host.Outcome.next.inj h
    exact .ok (fun hbuf => hbuf.1) fun hkey => hkey.1

/-! ## The obligations -/

theorem executeCommand_of_decode {w : Word} {i : Instr} (h : decode w = .ok i) (s : State) : executeCommand w s = exec i s := by
  rw [executeCommand, h]

/-- Settles O18: every command completes, and the condition of its end is one of the three, which exclude each other. -/
theorem errorOfEachCommand : Obligations.ErrorOfEachCommand := by
  refine ⟨fun w s hw => executeCommand_of_selects_no_row hw s, fun w s i hw => executeCommand_of_decode hw s, fun i s => ?_⟩
  obtain ⟨t, h⟩ := exec_completes i s
  refine ⟨t, h, ?_⟩
  cases commandEnd_of_exec h with
  | range hout => exact ⟨fun _ _ => rfl, fun hin => absurd hout hin, fun hin => absurd hout hin⟩
  | noKey hin hkey => exact ⟨fun hbuf hout => absurd ⟨hbuf, hout⟩ hin, fun _ _ _ => rfl, fun _ hok => absurd hkey hok⟩
  | ok hin hkey =>
    exact ⟨fun hbuf hout => absurd ⟨hbuf, hout⟩ hin, fun _ hneeds hlen => absurd ⟨hneeds, hlen⟩ hkey, fun _ _ => rfl⟩

/-- A command word that ends with an error has changed `ERR` alone: the error ends are all `raise` on the state found. -/
theorem eq_raise_of_executeCommand {w : Word} {s t : State} (h : executeCommand w s = .next t) (herr : t.err ≠ .ok) :
    t = raise t.err s := by
  obtain ⟨i, -, hexec⟩ | rfl := executeCommand_runs_or_raises h
  · cases commandEnd_of_exec hexec with
    | range => rfl
    | noKey => rfl
    | ok => exact absurd rfl herr
  · rfl

/-- Settles O19: the state left is the one found with another `ERR`, which no command reads. -/
theorem failedCommandChangesOnlyErr : Obligations.FailedCommandChangesOnlyErr := by
  refine ⟨fun w s t h herr => eq_raise_of_executeCommand h herr, fun w w' s t h herr => ?_⟩
  rw [eq_raise_of_executeCommand h herr, executeCommand_raise]

/-- Settles O20: the inputs exclude both errors a legal word can report. -/
theorem goodInputsAlwaysSucceed : Obligations.GoodInputsAlwaysSucceed := by
  intro w i s hw hbuf hkey
  obtain ⟨-, -, ends⟩ := errorOfEachCommand
  obtain ⟨t, h, -, -, hok⟩ := ends i s
  refine ⟨t, (executeCommand_of_decode hw s).trans h, hok ?_ ?_⟩
  · rintro ⟨-, hout⟩
    exact Nat.not_lt_of_le hbuf hout
  · rintro ⟨hneeds, hlen⟩
    exact hkey hneeds hlen

end Sys2Proof.Machine
end

section
/-! PROOF. Power-on reset: the values it gives, the step that takes it, and `RC4.RESET` with nothing left to clear
(70_reset_and_hazards.md R260). -/

namespace Sys2Proof.Machine

theorem statusWord_eq_zero {s : State} (hinit : s.init = false) (herr : s.err = .ok) : statusWord s = 0#32 := by
  rw [statusWord, hinit, herr]
  decide

theorem atPowerOnValues_powerOn (cfg : Config) : AtPowerOnValues (State.powerOn cfg) := by
  have hstatus : statusWord (State.powerOn cfg) = 0#32 := statusWord_eq_zero rfl rfl
  have hdigest (k : Fin 16) : (State.powerOn cfg).digest.get k = 0x00#8 := Vector.getElem_replicate k.isLt
  exact ⟨rfl, rfl, rfl, rfl, hstatus, rfl, rfl, hdigest, rfl, rfl, rfl, rfl, rfl⟩

theorem step_powerOn {s : State} {rest : List HostOp} (hin : s.inbox = .powerOn :: rest) :
    step s = .next { State.powerOn s.cfg with inbox := rest, replies := s.replies, freeCount := s.freeCount } :=
  step_cons hin

/-- At the power-on values `RC4.RESET` has nothing to clear: everything it writes is written already. -/
theorem AtPowerOnValues.exec_rc4Reset {t : State} (h : AtPowerOnValues t) : exec .rc4Reset t = .next t := by
  obtain ⟨-, -, -, -, -, hinit, herr, -, -, -, ha, hb, hpos⟩ := h
  have hperm : { t.perm with a := 0x00#8, b := 0x00#8 } = t.perm := congrArg₂ (PermBox.mk t.perm.box) ha.symm hb.symm
  rw [exec, execRc4Reset, hperm, ← hinit, ← hpos, succeed, ← herr]

/-- Settles O14: both resets leave a `State.powerOn`, whose values do not depend on the host's side, and `RC4.RESET` keeps a state
that has them. -/
theorem powerOnResetValues : Obligations.PowerOnResetValues := by
  refine ⟨atPowerOnValues_powerOn _, rfl, atPowerOnValues_powerOn, fun s rest hin => ?_⟩
  have hvalues : AtPowerOnValues { State.powerOn s.cfg with inbox := rest, replies := s.replies, freeCount := s.freeCount } :=
    atPowerOnValues_powerOn s.cfg
  exact ⟨_, _, step_powerOn hin, hvalues, rfl, rfl, rfl, hvalues.exec_rc4Reset, rfl, rfl, rfl, rfl⟩

end Sys2Proof.Machine
end

section
/-! PROOF. Decode and encode in both directions, what one step does with the entry it takes off the host's list, and the one entry that
stops the machine (30_encoding.md R90, R95; 20_memory.md R60, R67; 60_exceptions.md R230). -/

namespace Sys2Proof.Machine

/-! ## The decoder and the encoder -/

/-- The fields the decoder reads make up the whole word, so no two words decode to one command. -/
theorem word_eq_of_decode_eq {w v : Word} {i : Instr} (hw : decode w = .ok i) (hv : decode v = .ok i) : w = v := by
  rw [decode_eq_ok_iff, decodeOp_eq_ok_iff] at hw hv
  obtain ⟨hrsv, hop, hz, hiv⟩ := hw
  obtain ⟨hrsv', hop', hz', hiv'⟩ := hv
  have himm : immField w = immField v := by
    cases i with
    | rc4SetIv u => exact (hiv u rfl).symm.trans (hiv' u rfl)
    | _ => exact (hz rfl).trans (hz' rfl).symm
  exact word_eq_iff_fields.mpr ⟨hrsv.trans hrsv'.symm, himm, hop.trans hop'.symm⟩

/-- Settles O2: a command's own word decodes to it, and no other word does. -/
theorem decodeInvertsEncode : Obligations.DecodeInvertsEncode := by
  refine fun w i _ => ⟨fun hw => word_eq_of_decode_eq hw (decode_encode i), ?_⟩
  rintro rfl
  exact decode_encode i

/-- Settles O4: the six words are the encoder's; the decoder computes the refusals. -/
theorem specWordsDecode : Obligations.SpecWordsDecode :=
  ⟨decode_encode .md5Hash, decode_encode .rc4SetKey, decode_encode (.rc4SetIv 0x2A#8), decode_encode .rc4Crypt,
    decode_encode .rc4Stream, decode_encode .rc4Reset, rfl, rfl, rfl, rfl⟩

/-! ## One step -/

/-- Settles O5: a `WR` to `CMD` issues the word, which runs the command it decodes to. -/
theorem stepRunsTheDecodedCommand : Obligations.StepRunsTheDecodedCommand :=
  fun _ _ _ _ hin hw _ => (step_cons hin).trans (executeCommand_of_decode hw _)

/-- Settles O11: with nothing on the host's list the step is idle. -/
theorem idleStepKeepsAllState : Obligations.IdleStepKeepsAllState := fun _ => step_nil

theorem hostPutData_inside {addr : Word} {s : State} (h : addr.toNat < s.cfg.dataSize) (v : Byte) :
    hostPutData addr v s = .next { s with data := s.data.poke addr.toNat v } := by
  rw [hostPutData, memWrite_inside _ _ h]
  rfl

theorem hostPutData_outside {addr : Word} {s : State} (h : ¬ addr.toNat < s.cfg.dataSize) (v : Byte) :
    hostPutData addr v s = .fault (.noSuchAddress addr.toNat) := by
  rw [hostPutData, memWrite_outside _ _ h]
  rfl

theorem hostGetData_inside {addr : Word} {s : State} (h : addr.toNat < s.cfg.dataSize) :
    hostGetData addr s = .next (reply (.byte (s.data.peek addr.toNat)) s) := by
  rw [hostGetData, memRead_inside _ _ h]
  rfl

theorem hostGetData_outside {addr : Word} {s : State} (h : ¬ addr.toNat < s.cfg.dataSize) :
    hostGetData addr s = .fault (.noSuchAddress addr.toNat) := by
  rw [hostGetData, memRead_outside _ _ h]
  rfl

/-- Settles O10: the two paths of each access; what a write leaves is the law of `DATA` for one byte. -/
theorem hostDataAccess : Obligations.HostDataAccess := by
  refine ⟨fun s addr v rest hdata hin => ⟨fun inside => ?_, fun outside => ?_⟩,
    fun s addr rest hin => ⟨fun inside => ?_, fun outside => ?_⟩⟩
  · have read (a : Nat) : (s.data.poke addr.toNat v).peek a = if a = addr.toNat then v else s.data.peek a :=
      Memory.peek_poke s.data hdata.1 addr.toNat v a
    refine ⟨s.data.poke addr.toNat v, (step_cons hin).trans (hostPutData_inside (s := { s with inbox := rest }) inside v),
      Memory.poke_wf hdata addr.toNat v, ?_, fun a ha => ?_⟩
    · rw [read, if_pos rfl]
    · rw [read, if_neg ha]
  · exact (step_cons hin).trans (hostPutData_outside (s := { s with inbox := rest }) (Nat.not_lt_of_le outside) v)
  · exact (step_cons hin).trans (hostGetData_inside (s := { s with inbox := rest }) inside)
  · exact (step_cons hin).trans (hostGetData_outside (s := { s with inbox := rest }) (Nat.not_lt_of_le outside))

/-! ## What stops the machine -/

/-- A command word always completes, legal or not (60_exceptions.md R232). -/
theorem executeCommand_completes (w : Word) (s : State) : ∃ t, executeCommand w s = .next t := by
  unfold executeCommand
  cases decode w with
  | ok i => exact exec_completes i s
  | error d => exact ⟨_, rfl⟩

/-- Of the host's transactions only an access to a `DATA` address that does not exist answers no next state. -/
theorem hostStep_completes_iff (op : HostOp) (s : State) : (∃ t, hostStep op s = .next t) ↔ addressExists s.cfg op := by
  cases op with
  | wr idx v =>
    refine iff_of_true ?_ trivial
    by_cases hidx : idx = 0x00#8
    · subst hidx
      exact executeCommand_completes v s
    · exact ⟨_, hostWr_of_ne_cmd hidx v s⟩
  | rd idx => exact iff_of_true ⟨_, rfl⟩ trivial
  | putData addr v =>
    by_cases inside : addr.toNat < s.cfg.dataSize
    · exact iff_of_true ⟨_, hostPutData_inside inside v⟩ inside
    · refine iff_of_false ?_ inside
      rintro ⟨t, ht⟩
      cases (hostPutData_outside inside v).symm.trans ht
  | getData addr =>
    by_cases inside : addr.toNat < s.cfg.dataSize
    · exact iff_of_true ⟨_, hostGetData_inside inside⟩ inside
    · refine iff_of_false ?_ inside
      rintro ⟨t, ht⟩
      cases (hostGetData_outside inside).symm.trans ht
  | powerOn => exact iff_of_true ⟨_, rfl⟩ trivial

/-- Settles O12: an idle step completes, and any other exactly where its transaction does. -/
theorem onlyStrayHostAccessStops : Obligations.OnlyStrayHostAccessStops := by
  intro s
  cases hin : s.inbox with
  | nil => exact iff_of_true ⟨s, step_nil hin⟩ nofun
  | cons op rest =>
    rw [step_cons hin, hostStep_completes_iff]
    constructor
    · rintro haddr op' rest' ⟨⟩
      exact haddr
    · exact fun h => h op rest rfl

end Sys2Proof.Machine
end

section
/-! PROOF. What each command writes: `DATA`, the box with its flag and position, and every other register; and the two commands that
repeat without effect (10_state.md R24, R27 to R35; 20_memory.md R60, R65, R66). -/

namespace Sys2Proof.Machine

/-! ## The two ends of a cipher command -/

/-- `m` is `DATA` after `xor_buffer()` over the buffer of `s` from the cipher state `c`: it lists no address that does not exist, and
from the canonical form exactly the buffer is XORed. -/
structure XorsBuffer (s : State) (c : PermBox) (m : Memory) : Prop where
  bounded : (∀ x ∈ s.data, x.1 < s.cfg.dataSize) → ∀ x ∈ m, x.1 < s.cfg.dataSize
  xored : Memory.wf s.data → XoredInto s.data s.ptr.toNat s.len.toNat c m

theorem CipherEnd.error_or_done {needsKey : Prop} {c : PermBox} {p : Dword} {s t : State} {done : State → State}
    (h : CipherEnd needsKey { s with perm := c, init := true, pos := p } done s t) :
    (∃ e, e ≠ .ok ∧ t = raise e s) ∨
      ¬ needsKey ∧ ∃ m, XorsBuffer s c m ∧
        t = done { s with data := m, perm := prgaSkip s.len.toNat c, init := true, pos := p } := by
  cases h with
  | range => exact .inl ⟨.range, nofun, rfl⟩
  | noKey => exact .inl ⟨.noKey, nofun, rfl⟩
  | used hin hkey hrun =>
    obtain ⟨m, hrun', hbound, hxor⟩ :=
      xorOperandBuffer_inside { s with perm := c, init := true, pos := p } (Nat.le_of_not_lt hin)
    obtain rfl := Except.ok.inj (hrun.symm.trans hrun')
    exact .inr ⟨hkey, m, ⟨hbound, hxor⟩, rfl⟩

/-- `RC4.CRYPT` fails and changes `ERR` alone, or uses its box and invalidates it (42_rc4_prga.md R186). -/
theorem execRc4Crypt_error_or_done {s t : State} (h : execRc4Crypt s = .next t) :
    (∃ e, e ≠ .ok ∧ t = raise e s) ∨
      ∃ m, XorsBuffer s (cryptBox s) m ∧
        t = { s with data := m, perm := prgaSkip s.len.toNat (cryptBox s), init := false, err := .ok } := by
  have used := execRc4Crypt_end h
  rw [cryptStart_eq] at used
  exact used.error_or_done.imp_right fun ⟨_, hdone⟩ => hdone

/-- `RC4.STREAM` fails and changes `ERR` alone, or uses the box at `OFF` and moves `POS` past the buffer (43_rc4_stream.md R201). -/
theorem execRc4Stream_error_or_done {s t : State} (h : execRc4Stream s = .next t) :
    (∃ e, e ≠ .ok ∧ t = raise e s) ∨
      (s.init = false ∨ offset s ≠ s.pos → s.keyLen ≠ 0) ∧ ∃ m, XorsBuffer s (streamBox s) m ∧
        t = { s with
          data := m, perm := prgaSkip s.len.toNat (streamBox s), init := true, pos := offset s + s.len.zeroExtend 64
          err := .ok } := by
  have used := execRc4Stream_end h
  rw [streamStart_eq] at used
  exact used.error_or_done.imp_right fun ⟨hkey, hdone⟩ =>
    ⟨fun hrestart => not_and.mp hkey (streamRestarts_iff.mpr hrestart), hdone⟩

/-! ## What the other commands keep -/

/-- Every command but the two that run the cipher and `RC4.RESET` keeps the box, its flag and the position. -/
theorem boxState_of_exec {i : Instr} {s t : State} (hcrypt : i ≠ .rc4Crypt) (hstream : i ≠ .rc4Stream) (hreset : i ≠ .rc4Reset)
    (h : exec i s = .next t) : t.init = s.init ∧ t.perm = s.perm ∧ t.pos = s.pos := by
  cases i with
  | md5Hash =>
    rw [eq_withCipherOf_of_execMd5Hash h]
    exact ⟨rfl, rfl, rfl⟩
  | rc4SetKey => exact keyAndIvChangesKeepTheBox _ s t (.inl rfl) h
  | rc4SetIv v => exact keyAndIvChangesKeepTheBox _ s t (.inr ⟨v, rfl⟩) h
  | rc4Crypt => exact absurd rfl hcrypt
  | rc4Stream => exact absurd rfl hstream
  | rc4Reset => exact absurd rfl hreset

/-- Every command but the two that run the cipher stores nothing to `DATA` (20_memory.md R65). -/
theorem data_of_exec {i : Instr} {s t : State} (hcrypt : i ≠ .rc4Crypt) (hstream : i ≠ .rc4Stream) (h : exec i s = .next t) :
    t.data = s.data := by
  cases i with
  | md5Hash =>
    by_cases hout : outOfRange s
    · obtain rfl := Host.Outcome.next.inj ((execMd5Hash_outOfRange hout).symm.trans h)
      rfl
    · by_cases hlen : s.len = 0
      · obtain rfl := Host.Outcome.next.inj ((execMd5Hash_empty hout hlen).symm.trans h)
        rfl
      · obtain rfl := Host.Outcome.next.inj ((execMd5Hash_inside hout hlen).symm.trans h)
        rfl
  | rc4SetKey =>
    by_cases hout : outOfRange s
    · obtain rfl := Host.Outcome.next.inj ((execRc4SetKey_outOfRange hout).symm.trans h)
      rfl
    · obtain rfl := Host.Outcome.next.inj ((execRc4SetKey_inside hout).symm.trans h)
      rfl
  | rc4SetIv v =>
    obtain rfl := Host.Outcome.next.inj h
    rfl
  | rc4Crypt => exact absurd rfl hcrypt
  | rc4Stream => exact absurd rfl hstream
  | rc4Reset =>
    obtain rfl := Host.Outcome.next.inj h
    rfl

/-- Every command but `MD5.HASH` leaves the hash side as it was. -/
theorem eq_withHashOf_of_exec {i : Instr} {s t : State} (hi : i ≠ .md5Hash) (h : exec i s = .next t) : t = withHashOf s t := by
  obtain ⟨-, commutes⟩ := hashAndCipherAreIndependent
  have kept : exec i s = mapNext (withHashOf s) (exec i s) := commutes i s s hi
  rw [h] at kept
  exact Host.Outcome.next.inj kept

/-! ## The obligations -/

/-- Settles O22: the two ends of each command that runs the cipher, and the frame of the others. -/
theorem initFlagLifecycle : Obligations.InitFlagLifecycle := by
  refine ⟨ksa_init, fun _ => rfl, fun i s t h hok => ⟨?_, ?_, fun hcrypt hreset hstream => ?_⟩⟩
  · rintro (rfl | rfl)
    · obtain ⟨e, he, rfl⟩ | ⟨m, -, rfl⟩ := execRc4Crypt_error_or_done h
      · exact absurd hok he
      · rfl
    · obtain rfl := Host.Outcome.next.inj h
      rfl
  · rintro rfl
    obtain ⟨e, he, rfl⟩ | ⟨-, m, -, rfl⟩ := execRc4Stream_error_or_done h
    · exact absurd hok he
    · rfl
  · exact (boxState_of_exec hcrypt hstream hreset h).1

/-- Settles O23: the frame of each group of registers; `RC4.RESET` clears the indices and keeps `BOX`. -/
theorem writersOfEachRegister : Obligations.WritersOfEachRegister := by
  intro i s t h
  have hperm (hcrypt : i ≠ .rc4Crypt) (hstream : i ≠ .rc4Stream) (hreset : i ≠ .rc4Reset) : t.perm = s.perm := by
    obtain ⟨-, kept, -⟩ := boxState_of_exec hcrypt hstream hreset h
    exact kept
  refine ⟨fun hi => ?_, fun hi => iv_of_exec hi h, fun hi => sameKey_of_exec hi h,
    fun hstream hreset => pos_of_exec hstream hreset h, fun hcrypt hstream => ?_, hperm⟩
  · rw [eq_withHashOf_of_exec hi h]
    exact ⟨rfl, rfl⟩
  · by_cases hreset : i = .rc4Reset
    · subst hreset
      obtain rfl := Host.Outcome.next.inj h
      rfl
    · rw [hperm hcrypt hstream hreset]

theorem XorsBuffer.peek_outside {s : State} {c : PermBox} {m : Memory} (h : XorsBuffer s c m) (hdata : Memory.wf s.data) {a : Nat}
    (ha : a < s.ptr.toNat ∨ s.ptr.toNat + s.len.toNat ≤ a) : m.peek a = s.data.peek a := by
  obtain ⟨-, hbytes⟩ := h.xored hdata
  rw [hbytes, xoredByte, if_neg (by omega)]

/-- Settles O24: the two commands that run the cipher XOR their buffer or fail; the others store nothing. -/
theorem commandsWriteOnlyTheirBuffer : Obligations.CommandsWriteOnlyTheirBuffer := by
  refine fun i s t hdata h => ⟨fun a ha => ?_, fun hcrypt hstream => data_of_exec hcrypt hstream h⟩
  by_cases hcrypt : i = .rc4Crypt
  · subst hcrypt
    obtain ⟨e, -, rfl⟩ | ⟨m, hm, rfl⟩ := execRc4Crypt_error_or_done h
    · rfl
    · exact hm.peek_outside hdata ha
  by_cases hstream : i = .rc4Stream
  · subst hstream
    obtain ⟨e, -, rfl⟩ | ⟨-, m, hm, rfl⟩ := execRc4Stream_error_or_done h
    · rfl
    · exact hm.peek_outside hdata ha
  rw [data_of_exec hcrypt hstream h]

/-- `MD5.HASH` again: the same path over the same bytes gives the same digest (20_memory.md R66). -/
theorem execMd5Hash_again {s t : State} (h : execMd5Hash s = .next t) :
    ∃ hs n, execMd5Hash t = .next { t with hash := hs, freeCount := n } := by
  by_cases hout : outOfRange s
  · obtain rfl := Host.Outcome.next.inj ((execMd5Hash_outOfRange hout).symm.trans h)
    exact ⟨_, _, execMd5Hash_outOfRange hout⟩
  by_cases hlen : s.len = 0
  · obtain rfl := Host.Outcome.next.inj ((execMd5Hash_empty hout hlen).symm.trans h)
    exact ⟨_, _, execMd5Hash_empty hout hlen⟩
  · obtain rfl := Host.Outcome.next.inj ((execMd5Hash_inside hout hlen).symm.trans h)
    exact ⟨_, _, execMd5Hash_inside hout hlen⟩

/-- `RC4.SETKEY` again: the same bytes are copied (20_memory.md R66). -/
theorem execRc4SetKey_again {s t : State} (h : execRc4SetKey s = .next t) :
    ∃ key : Vector Byte 255, execRc4SetKey t = .next { t with key := key } ∧
      ∀ k : Fin 255, k.val < keyBytesUsed t.keyLen → key.get k = t.key.get k := by
  by_cases hout : outOfRange s
  · obtain rfl := Host.Outcome.next.inj ((execRc4SetKey_outOfRange hout).symm.trans h)
    exact ⟨_, execRc4SetKey_outOfRange hout, fun _ _ => rfl⟩
  · obtain rfl := Host.Outcome.next.inj ((execRc4SetKey_inside hout).symm.trans h)
    have copied (key : Vector Byte 255) {k : Fin 255} (hk : k.val < keyBytesUsed s.len) :=
      storeKey_get_copied (fun j => s.data.peek (bufStart s + j)) key hk
    exact ⟨_, execRc4SetKey_inside hout, fun _ hk => (copied _ hk).trans (copied _ hk).symm⟩

/-- Settles O36: each command repeated, path by path. -/
theorem hashAndSetKeyAreIdempotent : Obligations.HashAndSetKeyAreIdempotent :=
  fun _ _ => ⟨execMd5Hash_again, execRc4SetKey_again⟩

/-- Settles O44: the fill makes a permutation, and every swap of the mix and of the keystream engine keeps it one. -/
theorem scheduleAndAdvanceKeepPermutations : Obligations.ScheduleAndAdvanceKeepPermutations :=
  ⟨generatedBox_isPermutation, fun n _ h => h.prgaSkip n⟩

end Sys2Proof.Machine
end

section
/-! PROOF. The invariant: it holds after power-on reset and every step keeps it (10_state.md R34, R39; 20_memory.md R60;
43_rc4_stream.md R203). -/

namespace Sys2Proof.Machine

/-! ## The invariant at reset -/

theorem inv_powerOn {cfg : Config} (h : cfg.wf) : (State.powerOn cfg).Inv :=
  { config := h, canonical := State.powerOn_data_wf cfg, bounded := nofun, generated := nofun }

/-- Settles O15: `DATA` lists nothing and the box is not initialised; the size of `State.reset` is legal. -/
theorem invariantHoldsAtReset : Obligations.InvariantHoldsAtReset :=
  ⟨inv_powerOn (by decide), fun _ => inv_powerOn⟩

/-! ## The commands -/

/-- The invariant speaks of the parameter, `DATA` and the cipher state only. -/
theorem State.Inv.of_eq {s t : State} (h : s.Inv) (hcfg : t.cfg = s.cfg) (hdata : t.data = s.data) (hinit : t.init = s.init)
    (hperm : t.perm = s.perm) (hpos : t.pos = s.pos) : t.Inv := by
  obtain ⟨config, canonical, bounded, generated⟩ := h
  constructor
  · rwa [hcfg]
  · rwa [hdata]
  · rwa [hcfg, hdata]
  · rwa [hinit, hperm, hpos]

theorem cfg_of_exec {i : Instr} {s t : State} (h : exec i s = .next t) : t.cfg = s.cfg := by
  rw [eq_withHostSideOf_of_exec h]
  rfl

/-- The box `RC4.STREAM` uses is a generated one advanced to `OFF`: a restart makes it, and a continuing call finds it (R202). -/
theorem State.Inv.streamBox_generated {s : State} (h : s.Inv) (hkey : s.init = false ∨ offset s ≠ s.pos → s.keyLen ≠ 0) :
    ∃ (key : Vector Byte 255) (keyLen : Word) (iv : Byte) (n : Nat),
      keyLen ≠ 0 ∧ n % 2 ^ 64 = (offset s).toNat ∧ streamBox s = prgaSkip n (generatedBox key keyLen iv) := by
  by_cases hrestart : s.init = false ∨ offset s ≠ s.pos
  · exact ⟨s.key, s.keyLen, s.iv, (offset s).toNat, hkey hrestart, Nat.mod_eq_of_lt (offset s).isLt, streamBox_of_restart hrestart⟩
  · rw [streamBox_of_continue hrestart]
    rw [not_or, Bool.not_eq_false, not_not] at hrestart
    obtain ⟨hinit, hpos⟩ := hrestart
    rw [hpos]
    exact h.generated hinit

theorem inv_of_execRc4Crypt {s t : State} (hs : s.Inv) (h : execRc4Crypt s = .next t) : t.Inv := by
  obtain ⟨e, -, rfl⟩ | ⟨m, hm, rfl⟩ := execRc4Crypt_error_or_done h
  · exact hs.of_eq rfl rfl rfl rfl rfl
  · exact { config := hs.config, canonical := (hm.xored hs.canonical).1, bounded := hm.bounded hs.bounded, generated := nofun }

theorem inv_of_execRc4Stream {s t : State} (hs : s.Inv) (h : execRc4Stream s = .next t) : t.Inv := by
  obtain ⟨e, -, rfl⟩ | ⟨hkey, m, hm, rfl⟩ := execRc4Stream_error_or_done h
  · exact hs.of_eq rfl rfl rfl rfl rfl
  · obtain ⟨key, keyLen, iv, n, hlen, hn, hbox⟩ := hs.streamBox_generated hkey
    refine { config := hs.config, canonical := (hm.xored hs.canonical).1, bounded := hm.bounded hs.bounded,
             generated := fun _ => ⟨key, keyLen, iv, n + s.len.toNat, hlen, ?_, ?_⟩ }
    · rw [toNat_add_zeroExtend, ← hn, Nat.mod_add_mod]
    · rw [hbox, prgaSkip_add]

theorem inv_of_exec {i : Instr} {s t : State} (hs : s.Inv) (h : exec i s = .next t) : t.Inv := by
  by_cases hcrypt : i = .rc4Crypt
  · subst hcrypt
    exact inv_of_execRc4Crypt hs h
  by_cases hstream : i = .rc4Stream
  · subst hstream
    exact inv_of_execRc4Stream hs h
  have hdata := data_of_exec hcrypt hstream h
  by_cases hreset : i = .rc4Reset
  · subst hreset
    obtain rfl := Host.Outcome.next.inj h
    exact { config := hs.config, canonical := hs.canonical, bounded := hs.bounded, generated := nofun }
  obtain ⟨hinit, hperm, hpos⟩ := boxState_of_exec hcrypt hstream hreset h
  exact hs.of_eq (cfg_of_exec h) hdata hinit hperm hpos

/-! ## The step -/

theorem inv_of_executeCommand {w : Word} {s t : State} (hs : s.Inv) (h : executeCommand w s = .next t) :
    t.Inv ∧ t.cfg = s.cfg := by
  obtain ⟨i, -, hexec⟩ | rfl := executeCommand_runs_or_raises h
  · exact ⟨inv_of_exec hs hexec, cfg_of_exec hexec⟩
  · exact ⟨hs.of_eq rfl rfl rfl rfl rfl, rfl⟩

/-- The host's own write to `DATA` is one byte at an address that exists, or faults (20_memory.md R60, R67). -/
theorem inv_of_hostPutData {addr : Word} {v : Byte} {s t : State} (hs : s.Inv) (h : hostPutData addr v s = .next t) :
    t.Inv ∧ t.cfg = s.cfg := by
  by_cases inside : addr.toNat < s.cfg.dataSize
  · obtain rfl := Host.Outcome.next.inj ((hostPutData_inside inside v).symm.trans h)
    exact ⟨{ config := hs.config, canonical := Memory.poke_wf hs.canonical _ v,
             bounded := Memory.poke_bounded hs.bounded inside v, generated := hs.generated }, rfl⟩
  · cases (hostPutData_outside inside v).symm.trans h

theorem inv_of_hostStep {op : HostOp} {s t : State} (hs : s.Inv) (h : hostStep op s = .next t) :
    t.Inv ∧ t.cfg = s.cfg := by
  cases op with
  | wr idx v =>
    by_cases hidx : idx = 0x00#8
    · subst hidx
      exact inv_of_executeCommand (w := v) hs h
    · obtain rfl := Host.Outcome.next.inj ((hostWr_of_ne_cmd hidx v s).symm.trans h)
      exact ⟨hs.of_eq rfl rfl rfl rfl rfl, rfl⟩
  | rd idx =>
    obtain rfl := Host.Outcome.next.inj h
    exact ⟨hs.of_eq rfl rfl rfl rfl rfl, rfl⟩
  | putData addr v => exact inv_of_hostPutData hs h
  | getData addr =>
    obtain ⟨b, -, rfl⟩ := finish_bind_next h
    exact ⟨hs.of_eq rfl rfl rfl rfl rfl, rfl⟩
  | powerOn =>
    obtain rfl := Host.Outcome.next.inj h
    exact ⟨(inv_powerOn hs.config).of_eq rfl rfl rfl rfl rfl, rfl⟩

/-- Settles O16: an idle step keeps the whole state, and the host's list is no part of the invariant. -/
theorem everyStepKeepsTheInvariant : Obligations.EveryStepKeepsTheInvariant := by
  intro s t hs h
  cases hin : s.inbox with
  | nil =>
    obtain rfl := Host.Outcome.next.inj ((step_nil hin).symm.trans h)
    exact ⟨hs, rfl⟩
  | cons op rest =>
    have htaken : State.Inv { s with inbox := rest } := hs.of_eq rfl rfl rfl rfl rfl
    have kept := inv_of_hostStep htaken ((step_cons hin).symm.trans h)
    exact kept

end Sys2Proof.Machine
end

section
/-! PROOF. What the spec leaves unspecified influences no command: from two states that differ at most there, each command answers two
that differ at most there again (10_state.md R29, R32, R33, R38). -/

namespace Sys2Proof.Machine

/-- Both outcomes are next states, and these differ at most in what is unspecified. -/
def SameNext (o o' : Host.Outcome State Fault Refusal) : Prop := ∃ s t, o = .next s ∧ o' = .next t ∧ SameSpecified s t

section
variable {s t : State}

/-! ## What is read of two such states -/

theorem SameSpecified.outOfRange_iff (h : SameSpecified s t) : outOfRange s ↔ outOfRange t := by
  rw [outOfRange, outOfRange, h.cfg, h.ptr, h.len]

theorem SameSpecified.bufferInRange_eq (h : SameSpecified s t) : bufferInRange s = bufferInRange t := by
  rw [bufferInRange, bufferInRange, h.cfg, h.ptr, h.len]

theorem SameSpecified.bufferBytes_eq (h : SameSpecified s t) : bufferBytes s = bufferBytes t := by
  unfold bufferBytes bufLength bufStart
  rw [h.data, h.ptr, h.len]

theorem SameSpecified.offset_eq (h : SameSpecified s t) : offset s = offset t := by
  rw [offset, offset, h.offLo, h.offHi]

theorem SameSpecified.streamRestarts_eq (h : SameSpecified s t) : streamRestarts s = streamRestarts t := by
  rw [streamRestarts, streamRestarts, h.init, h.offset_eq, h.pos]

/-- An initialised box is specified. -/
theorem SameSpecified.perm_eq (h : SameSpecified s t) (hinit : s.init = true) : s.perm = t.perm := by
  calc s.perm
    _ = ⟨s.perm.box, s.perm.a, s.perm.b⟩ := rfl
    _ = ⟨t.perm.box, t.perm.a, t.perm.b⟩ := by rw [h.box hinit, h.idxA, h.idxB]

/-- The key schedule reads the key bytes in use and no `BOX` (41_rc4_ksa.md R166). -/
theorem SameSpecified.generatedBox_eq (h : SameSpecified s t) (hkey : s.keyLen ≠ 0) :
    generatedBox s.key s.keyLen s.iv = generatedBox t.key t.keyLen t.iv := by
  rw [← h.iv]
  exact generatedBox_congr s.iv hkey (congrArg keyBytesUsed h.keyLen) h.key

theorem SameSpecified.cryptBox_eq (h : SameSpecified s t) (hkey : ¬ (s.init = false ∧ s.keyLen = 0)) : cryptBox s = cryptBox t := by
  rw [cryptBox, cryptBox, ← h.init]
  split_ifs with hinit
  · exact h.perm_eq hinit
  · exact h.generatedBox_eq (not_and.mp hkey (eq_false_of_ne_true hinit))

theorem SameSpecified.streamBox_eq (h : SameSpecified s t) (hkey : ¬ (streamRestarts s = true ∧ s.keyLen = 0)) :
    streamBox s = streamBox t := by
  rw [streamBox, streamBox, ← h.streamRestarts_eq, ← h.offset_eq]
  split_ifs with hrestart
  · rw [h.generatedBox_eq (not_and.mp hkey hrestart)]
  · rw [streamRestarts_iff, not_or, Bool.not_eq_false] at hrestart
    exact h.perm_eq hrestart.1

/-! ## `MD5.HASH` and `RC4.SETKEY` -/

theorem SameSpecified.raise (h : SameSpecified s t) (e : ErrCode) : SameSpecified (raise e s) (raise e t) :=
  { h with err := rfl }

theorem sameNext_execMd5Hash (h : SameSpecified s t) : SameNext (execMd5Hash s) (execMd5Hash t) := by
  by_cases hout : outOfRange s
  · exact ⟨_, _, execMd5Hash_outOfRange hout, execMd5Hash_outOfRange (h.outOfRange_iff.mp hout), h.raise .range⟩
  have hout' : ¬ outOfRange t := mt h.outOfRange_iff.mpr hout
  by_cases hlen : s.len = 0
  · exact ⟨_, _, execMd5Hash_empty hout hlen, execMd5Hash_empty hout' (h.len ▸ hlen), { h with err := rfl, digest := rfl }⟩
  · exact ⟨_, _, execMd5Hash_inside hout hlen, execMd5Hash_inside hout' (h.len ▸ hlen),
      { h with err := rfl, digest := congrArg md5Digest h.bufferBytes_eq }⟩

/-- The key bytes in use afterwards are the bytes copied; those above were and are unspecified. -/
theorem sameNext_execRc4SetKey (h : SameSpecified s t) : SameNext (execRc4SetKey s) (execRc4SetKey t) := by
  by_cases hout : outOfRange s
  · exact ⟨_, _, execRc4SetKey_outOfRange hout, execRc4SetKey_outOfRange (h.outOfRange_iff.mp hout), h.raise .range⟩
  refine ⟨_, _, execRc4SetKey_inside hout, execRc4SetKey_inside (mt h.outOfRange_iff.mpr hout),
    { h with err := rfl, keyLen := h.len, key := fun k hk => ?_ }⟩
  have hk' : k.val < keyBytesUsed t.len := h.len ▸ hk
  have same : s.data.peek (bufStart s + k.val) = t.data.peek (bufStart t + k.val) := by rw [bufStart, bufStart, h.data, h.ptr]
  have copied := storeKey_get_copied (fun j => s.data.peek (bufStart s + j)) s.key hk
  have copied' := storeKey_get_copied (fun j => t.data.peek (bufStart t + j)) t.key hk'
  exact copied.trans (same.trans copied'.symm)

/-! ## The commands that use the cipher -/

/-- `xor_buffer()` from two states with an initialised box: the same bytes and the same cipher state. -/
theorem SameSpecified.xorOperandBuffer_ok (h : SameSpecified s t) (hinit : s.init = true) (hin : ¬ outOfRange s) :
    ∃ u v, xorOperandBuffer s = .ok u ∧ xorOperandBuffer t = .ok v ∧ SameSpecified u v := by
  obtain ⟨m, hrun, -⟩ := xorBuffer_inside s.cfg (bufLength s) (bufStart s) s.data s.perm (Nat.le_of_not_lt hin)
  have hrun' : xorBuffer t.cfg (bufLength t) (bufStart t) t.data t.perm = .ok (m, prgaSkip (bufLength s) s.perm) := by
    rw [← hrun, bufLength, bufStart, ← h.cfg, ← h.len, ← h.ptr, ← h.data, ← h.perm_eq hinit]
    rfl
  refine ⟨{ s with data := m, perm := prgaSkip (bufLength s) s.perm }, { t with data := m, perm := prgaSkip (bufLength s) s.perm },
    ?_, ?_, { h with data := rfl, box := fun _ => rfl, idxA := rfl, idxB := rfl }⟩
  · rw [xorOperandBuffer, hrun]
    rfl
  · rw [xorOperandBuffer, hrun']
    rfl

/-- A command that uses the cipher takes the same path from both states; it uses its box in the states `a` and `b`. -/
theorem sameNext_cipherCommand {needsKey needsKey' : Prop} [Decidable needsKey] [Decidable needsKey'] {a b : State}
    {done done' : State → State} (h : SameSpecified s t) (hneeds : needsKey = needsKey') (hbox : ¬ needsKey → SameSpecified a b)
    (hinit : a.init = true) (hrange : ¬ outOfRange s → ¬ outOfRange a)
    (hdone : ∀ u v, SameSpecified u v → SameSpecified (done u) (done' v)) :
    SameNext
      (if bufferInRange s = false then .next (raise .range s) else if needsKey then .next (raise .noKey s)
        else finish (xorOperandBuffer a >>= fun u => .ok (done u)))
      (if bufferInRange t = false then .next (raise .range t) else if needsKey' then .next (raise .noKey t)
        else finish (xorOperandBuffer b >>= fun v => .ok (done' v))) := by
  subst hneeds
  rw [← h.bufferInRange_eq]
  split_ifs with hout hkey
  · exact ⟨_, _, rfl, rfl, h.raise .range⟩
  · exact ⟨_, _, rfl, rfl, h.raise .noKey⟩
  · have hin : ¬ outOfRange s := mt bufferInRange_eq_false_iff.mpr hout
    obtain ⟨u, v, hu, hv, huv⟩ := (hbox hkey).xorOperandBuffer_ok hinit (hrange hin)
    rw [hu, hv]
    exact ⟨_, _, rfl, rfl, hdone u v huv⟩

/-- Two states whose box is about to be used differ in nothing the cipher reads. -/
theorem SameSpecified.withBox (h : SameSpecified s t) (c : PermBox) {p q : Dword} (hpos : p = q) :
    SameSpecified { s with perm := c, init := true, pos := p } { t with perm := c, init := true, pos := q } :=
  { h with init := rfl, box := fun _ => rfl, idxA := rfl, idxB := rfl, pos := hpos }

theorem sameNext_execRc4Crypt (h : SameSpecified s t) : SameNext (execRc4Crypt s) (execRc4Crypt t) := by
  rw [execRc4Crypt, execRc4Crypt, cryptStart_eq, cryptStart_eq]
  refine sameNext_cipherCommand h (by rw [h.init, h.keyLen]) (fun hkey => ?_) rfl id
    fun u v huv => { huv with init := rfl, err := rfl, box := nofun }
  rw [← h.cryptBox_eq hkey]
  exact h.withBox _ h.pos

theorem sameNext_execRc4Stream (h : SameSpecified s t) : SameNext (execRc4Stream s) (execRc4Stream t) := by
  rw [execRc4Stream, execRc4Stream, streamStart_eq, streamStart_eq]
  refine sameNext_cipherCommand h (by rw [h.streamRestarts_eq, h.keyLen]) (fun hkey => ?_) rfl id
    fun u v huv => { huv with err := rfl, pos := ?_ }
  · rw [← h.streamBox_eq hkey]
    exact h.withBox _ h.offset_eq
  · exact congrArg₂ (fun (p : Dword) (n : Word) => p + n.zeroExtend 64) huv.pos h.len

end

/-- Settles O26: one lemma per command that reads a buffer; `RC4.SETIV` and `RC4.RESET` write constants. -/
theorem unspecifiedStateInfluencesNothing : Obligations.UnspecifiedStateInfluencesNothing := by
  intro i s t h
  cases i with
  | md5Hash => exact sameNext_execMd5Hash h
  | rc4SetKey => exact sameNext_execRc4SetKey h
  | rc4SetIv v => exact ⟨_, _, rfl, rfl, { h with iv := rfl, err := rfl }⟩
  | rc4Crypt => exact sameNext_execRc4Crypt h
  | rc4Stream => exact sameNext_execRc4Stream h
  | rc4Reset => exact ⟨_, _, rfl, rfl, { h with init := rfl, err := rfl, box := nofun, idxA := rfl, idxB := rfl, pos := rfl }⟩

end Sys2Proof.Machine
end

section
/-! PROOF. A buffer XORed in two parts, and `RC4.STREAM` split into two calls (43_rc4_stream.md R204). -/

namespace Sys2Proof.Machine

/-! ## Adjacent parts of a buffer -/

/-- The keystream determines what an XORed buffer leaves in `DATA`. -/
theorem XoredInto.unique {m m' m'' : Memory} {p n : Nat} {c : PermBox} (h : XoredInto m p n c m') (h' : XoredInto m p n c m'') :
    m' = m'' := by
  obtain ⟨hwf, hbytes⟩ := h
  obtain ⟨hwf', hbytes'⟩ := h'
  exact Memory.ext_peek hwf hwf' fun a => (hbytes a).trans (hbytes' a).symm

/-- Two adjacent parts XORed in order, the second with the keystream where the first left it, are one buffer XORed. -/
theorem XoredInto.append {m m' m'' : Memory} {p n k : Nat} {c : PermBox} (first : XoredInto m p n c m')
    (second : XoredInto m' (p + n) k (prgaSkip n c) m'') : XoredInto m p (n + k) c m'' := by
  obtain ⟨-, hfirst⟩ := first
  obtain ⟨hwf, hsecond⟩ := second
  refine ⟨hwf, fun a => ?_⟩
  rw [hsecond, xoredByte, hfirst, xoredByte, xoredByte]
  by_cases hinFirst : p ≤ a ∧ a < p + n
  · rw [if_neg (by omega), if_pos hinFirst, if_pos (by omega)]
  by_cases hinSecond : p + n ≤ a ∧ a < p + n + k
  · rw [if_pos hinSecond, if_neg hinFirst, if_pos (by omega), keystreamByte_prgaSkip, show n + (a - (p + n)) = a - p by omega]
  · rw [if_neg hinSecond, if_neg hinFirst, if_neg (by omega)]

/-! ## `RC4.STREAM` at given operands -/

theorem offset_withOperands (s : State) (p n : Word) (off : Dword) : offset (withOperands s p n off) = off :=
  (BitVec.extractLsb'_append_extractLsb'_eq_extractLsb' (by rfl)).trans BitVec.extractLsb'_eq_self

/-- Where the stream starts does not depend on the buffer. -/
theorem streamBox_withOperands (s : State) (p n p' n' : Word) (off : Dword) :
    streamBox (withOperands s p n off) = streamBox (withOperands s p' n' off) := rfl

/-- What `RC4.STREAM` leaves over `n` bytes from `p` on at the offset `off`, with the cipher state `c` and the new `DATA` `m`. -/
def streamed (s : State) (p n : Word) (off : Dword) (c : PermBox) (m : Memory) : State :=
  { withOperands s p n off with
    data := m, perm := prgaSkip n.toNat c, init := true, pos := off + n.zeroExtend 64, err := .ok }

theorem execRc4Stream_withOperands {s : State} {p n : Word} {off : Dword} {c : PermBox}
    (hbox : streamBox (withOperands s p n off) = c) (hdata : Memory.wf s.data) (hin : p.toNat + n.toNat ≤ s.cfg.dataSize)
    (hkey : s.init = false ∨ off ≠ s.pos → s.keyLen ≠ 0) :
    ∃ m, execRc4Stream (withOperands s p n off) = .next (streamed s p n off c m) ∧ XoredInto s.data p.toNat n.toNat c m := by
  subst hbox
  obtain ⟨m, hrun, hm⟩ := execRc4Stream_inside (s := withOperands s p n off) hdata (Nat.not_lt_of_le hin)
    (by rw [offset_withOperands]; exact hkey)
  rw [offset_withOperands] at hrun
  exact ⟨m, hrun, hm⟩

/-- A call at the offset where the last one ended does not restart (R202). -/
theorem streamed_continues (s : State) (p n : Word) (off : Dword) (c : PermBox) (m : Memory) :
    ¬ ((streamed s p n off c m).init = false ∨ off + n.zeroExtend 64 ≠ (streamed s p n off c m).pos) :=
  not_or.mpr ⟨nofun, fun hne => hne rfl⟩

theorem streamBox_of_streamed (s : State) (p n : Word) (off : Dword) (c : PermBox) (m : Memory) (p' n' : Word) :
    streamBox (withOperands (streamed s p n off c m) p' n' (off + n.zeroExtend 64)) = prgaSkip n.toNat c := by
  refine streamBox_of_continue ?_
  rw [offset_withOperands]
  exact streamed_continues s p n off c m

theorem add_zeroExtend_add {n m : Word} (h : n.toNat + m.toNat < 2 ^ 32) (off : Dword) :
    off + (n + m).zeroExtend 64 = off + n.zeroExtend 64 + m.zeroExtend 64 := by
  bv_omega

/-- Two calls in a row leave the fields one call leaves, once the operands are written again. -/
theorem streamed_streamed (s : State) {p n m : Word} {off : Dword} {c : PermBox} {m₁ m₂ : Memory}
    (h : n.toNat + m.toNat < 2 ^ 32) :
    withOperands (streamed (streamed s p n off c m₁) (p + n) m (off + n.zeroExtend 64) (prgaSkip n.toNat c) m₂) p (n + m) off =
      streamed s p (n + m) off c m₂ := by
  have hperm : prgaSkip (n + m).toNat c = prgaSkip m.toNat (prgaSkip n.toNat c) := by
    rw [BitVec.toNat_add_of_lt h, prgaSkip_add]
  rw [streamed, streamed, streamed, hperm, add_zeroExtend_add h]
  rfl

/-- Settles O51: the second call continues at the end of the first, and the two buffers XORed are the one. -/
theorem splitStreamEqualsOnePass : Obligations.SplitStreamEqualsOnePass := by
  intro s p n m off hdata hsize hptr hlen hkey
  have hptr' : (p + n).toNat = p.toNat + n.toNat := BitVec.toNat_add_of_lt hptr
  have hlen' : (n + m).toNat = n.toNat + m.toNat := BitVec.toNat_add_of_lt hlen
  obtain ⟨m₁, hfirst, hm₁⟩ := execRc4Stream_withOperands rfl hdata (by omega : p.toNat + n.toNat ≤ _) hkey
  obtain ⟨m₂, hsecond, hm₂⟩ := execRc4Stream_withOperands (streamBox_of_streamed s p n off _ m₁ (p + n) m) hm₁.1
    (by rw [hptr']; exact hsize) fun hrestart => absurd hrestart (streamed_continues s p n off _ m₁)
  obtain ⟨m₃, honce, hm₃⟩ := execRc4Stream_withOperands (streamBox_withOperands s p (n + m) p n off) hdata (by omega) hkey
  rw [hptr'] at hm₂
  rw [hlen'] at hm₃
  obtain rfl : m₃ = m₂ := hm₃.unique (hm₁.append hm₂)
  exact ⟨_, _, hfirst, hsecond, honce.trans (congrArg _ (streamed_streamed s hlen).symm)⟩

end Sys2Proof.Machine
end
